-- ==== Sys2Proof/Word.lean ====
section
/-! DEFINITION. The word types of CHIP8-CORE: every value the machine computes with is an unsigned bit vector of
one of these widths (00_scope.md R5, R13). Nothing is signed. -/

namespace Sys2Proof

/-- One memory cell, one general register, one timer, one byte immediate (R5). -/
abbrev Byte := BitVec 8

/-- The width of `pc`, of `I`, of a stack entry and of an instruction word (R5, R80). -/
abbrev Word := BitVec 16

/-- A 12-bit address immediate, the field `nnn` (30_encoding.md R81). -/
abbrev Addr12 := BitVec 12

/-- A 4-bit field of the instruction word (30_encoding.md R81). -/
abbrev Nibble := BitVec 4

end Sys2Proof
end

