-- ==== Sys2Proof/Syntax.lean ====
section
/-! DEFINITION. The syntax of the 34 instructions, one constructor per row of the opcode table
(30_encoding.md R84), in the table's order. A word that matches no row is no instruction: the decoder rejects it
by name and the instruction cycle executes it as the no-op of 40_cycle.md R106. -/

namespace Sys2Proof

/-- A register number, the field `x` or `y`: every one of the 16 values names a register (R20). -/
abbrev Reg := Fin 16

/-- The flag register `VF` is `V[15]` (R21). -/
abbrev VF : Reg := 15

/-- The instructions. `x` and `y` are register numbers, `kk` a byte immediate, `nnn` an address immediate and
`n` a row count (R81, R83). -/
inductive Instr where
  /-- `00E0` CLS (R190). -/
  | cls
  /-- `00EE` RET (R122). -/
  | ret
  /-- `1nnn` JP nnn (R123). -/
  | jp (nnn : Addr12)
  /-- `2nnn` CALL nnn (R124). -/
  | call (nnn : Addr12)
  /-- `3xkk` SE Vx, kk (R126). -/
  | seImm (x : Reg) (kk : Byte)
  /-- `4xkk` SNE Vx, kk (R127). -/
  | sneImm (x : Reg) (kk : Byte)
  /-- `5xy0` SE Vx, Vy (R128). -/
  | seReg (x y : Reg)
  /-- `6xkk` LD Vx, kk (R140). -/
  | ldImm (x : Reg) (kk : Byte)
  /-- `7xkk` ADD Vx, kk (R141). -/
  | addImm (x : Reg) (kk : Byte)
  /-- `8xy0` LD Vx, Vy (R142). -/
  | ldReg (x y : Reg)
  /-- `8xy1` OR Vx, Vy (R143). -/
  | orReg (x y : Reg)
  /-- `8xy2` AND Vx, Vy (R144). -/
  | andReg (x y : Reg)
  /-- `8xy3` XOR Vx, Vy (R145). -/
  | xorReg (x y : Reg)
  /-- `8xy4` ADD Vx, Vy (R146). -/
  | addReg (x y : Reg)
  /-- `8xy5` SUB Vx, Vy (R147). -/
  | subReg (x y : Reg)
  /-- `8xy6` SHR Vx (R148): `y` is present in the word and ignored. -/
  | shr (x y : Reg)
  /-- `8xy7` SUBN Vx, Vy (R149). -/
  | subnReg (x y : Reg)
  /-- `8xyE` SHL Vx (R150): `y` is present in the word and ignored. -/
  | shl (x y : Reg)
  /-- `9xy0` SNE Vx, Vy (R129). -/
  | sneReg (x y : Reg)
  /-- `Annn` LD I, nnn (R170). -/
  | ldI (nnn : Addr12)
  /-- `Bnnn` JP V0, nnn (R125). -/
  | jpV0 (nnn : Addr12)
  /-- `Cxkk` RND Vx, kk (R151). -/
  | rnd (x : Reg) (kk : Byte)
  /-- `Dxyn` DRW Vx, Vy, n (R192): `n` counts sprite rows, 0..15 in every encoding (WellFormed.lean). -/
  | drw (x y : Reg) (n : Nat)
  /-- `Ex9E` SKP Vx (R210). -/
  | skp (x : Reg)
  /-- `ExA1` SKNP Vx (R211). -/
  | sknp (x : Reg)
  /-- `Fx07` LD Vx, DT (R213). -/
  | ldVxDT (x : Reg)
  /-- `Fx0A` LD Vx, K (R212). -/
  | ldVxK (x : Reg)
  /-- `Fx15` LD DT, Vx (R214). -/
  | ldDTVx (x : Reg)
  /-- `Fx18` LD ST, Vx (R215). -/
  | ldSTVx (x : Reg)
  /-- `Fx1E` ADD I, Vx (R171). -/
  | addI (x : Reg)
  /-- `Fx29` LD F, Vx (R172). -/
  | ldF (x : Reg)
  /-- `Fx33` LD B, Vx (R173). -/
  | ldB (x : Reg)
  /-- `Fx55` LD [I], Vx (R174). -/
  | store (x : Reg)
  /-- `Fx65` LD Vx, [I] (R175). -/
  | load (x : Reg)
  deriving DecidableEq, Repr

end Sys2Proof
end

