-- ==== Sys2Proof/WellFormed.lean ====
section
/-! DEFINITION. Which instruction terms an encoding can stand for. Register numbers and immediates have the width
of their field by type; the row count of `Dxyn` is a number, and its field has 4 bits (30_encoding.md R81). -/

namespace Sys2Proof

/-- The one check: a row count fits the 4-bit field `n4`, so `0 ≤ n ≤ 15` (R81, R192). -/
def Instr.wellFormed : Instr → Bool
  | .cls | .ret | .jp _ | .call _ => true
  | .seImm _ _ | .sneImm _ _ | .seReg _ _ | .ldImm _ _ | .addImm _ _ => true
  | .ldReg _ _ | .orReg _ _ | .andReg _ _ | .xorReg _ _ | .addReg _ _ => true
  | .subReg _ _ | .shr _ _ | .subnReg _ _ | .shl _ _ | .sneReg _ _ => true
  | .ldI _ | .jpV0 _ | .rnd _ _ => true
  | .drw _ _ n => decide (n < 16)
  | .skp _ | .sknp _ | .ldVxDT _ | .ldVxK _ | .ldDTVx _ | .ldSTVx _ => true
  | .addI _ | .ldF _ | .ldB _ | .store _ | .load _ => true

/-- `i` is a term some instruction word spells. -/
abbrev Instr.WellFormed (i : Instr) : Prop := i.wellFormed = true

end Sys2Proof
end

