-- ==== Sys2Proof/Decode.lean ====
section
/-! DEFINITION. Decoding (30_encoding.md R80 to R88) and, after it, encoding from the same table.

The decoder is total on any bytes. It answers an instruction, or rejects BY NAME: `truncated` for fewer than two
bytes, `unmatched` for a word that matches no row of the table (R87), which the instruction cycle executes as a
no-op (40_cycle.md R106). -/

namespace Sys2Proof

/-- Why bytes are no instruction. -/
inductive Reject where
  /-- Fewer than the two bytes of an instruction (R80). -/
  | truncated
  /-- The word matches none of the 34 rows (R87). -/
  | unmatched (opcode : Word)
  deriving DecidableEq, Repr

/-! ### The fields of the word (R81) -/

/-- `n1 = opcode[15:12]`, the major opcode. -/
def fieldN1 (w : Word) : Nibble := w.extractLsb' 12 4

/-- `x = opcode[11:8]`, the number of the first register. -/
def fieldX (w : Word) : Reg := (w.extractLsb' 8 4).toFin

/-- `y = opcode[7:4]`, the number of the second register. -/
def fieldY (w : Word) : Reg := (w.extractLsb' 4 4).toFin

/-- `n4 = opcode[3:0]`, the minor opcode or the row count. -/
def fieldN4 (w : Word) : Nibble := w.extractLsb' 0 4

/-- `kk = opcode[7:0]`, the byte immediate or the minor opcode of groups E and F. -/
def fieldKK (w : Word) : Byte := w.extractLsb' 0 8

/-- `addr12 = opcode[11:0]`, the address immediate. -/
def fieldNNN (w : Word) : Addr12 := w.extractLsb' 0 12

/-! ### The opcode map (R84, R85, R86) -/

/-- Group 8: the register-to-register forms, told apart by `n4` (R84 rows 10 to 18). -/
def decodeGroup8 (w : Word) : Except Reject Instr :=
  match fieldN4 w with
  | 0x0#4 => .ok (.ldReg (fieldX w) (fieldY w))
  | 0x1#4 => .ok (.orReg (fieldX w) (fieldY w))
  | 0x2#4 => .ok (.andReg (fieldX w) (fieldY w))
  | 0x3#4 => .ok (.xorReg (fieldX w) (fieldY w))
  | 0x4#4 => .ok (.addReg (fieldX w) (fieldY w))
  | 0x5#4 => .ok (.subReg (fieldX w) (fieldY w))
  | 0x6#4 => .ok (.shr (fieldX w) (fieldY w))
  | 0x7#4 => .ok (.subnReg (fieldX w) (fieldY w))
  | 0xE#4 => .ok (.shl (fieldX w) (fieldY w))
  | _ => .error (.unmatched w)

/-- Group F: told apart by the low byte (R84 rows 26 to 34). -/
def decodeGroupF (w : Word) : Except Reject Instr :=
  match fieldKK w with
  | 0x07#8 => .ok (.ldVxDT (fieldX w))
  | 0x0A#8 => .ok (.ldVxK (fieldX w))
  | 0x15#8 => .ok (.ldDTVx (fieldX w))
  | 0x18#8 => .ok (.ldSTVx (fieldX w))
  | 0x1E#8 => .ok (.addI (fieldX w))
  | 0x29#8 => .ok (.ldF (fieldX w))
  | 0x33#8 => .ok (.ldB (fieldX w))
  | 0x55#8 => .ok (.store (fieldX w))
  | 0x65#8 => .ok (.load (fieldX w))
  | _ => .error (.unmatched w)

/-- The instruction a word spells. Every fixed digit of a pattern is matched (R85). -/
def decodeWord (w : Word) : Except Reject Instr :=
  match fieldN1 w with
  | 0x0#4 =>
    if w = 0x00E0#16 then .ok .cls
    else if w = 0x00EE#16 then .ok .ret
    else .error (.unmatched w)
  | 0x1#4 => .ok (.jp (fieldNNN w))
  | 0x2#4 => .ok (.call (fieldNNN w))
  | 0x3#4 => .ok (.seImm (fieldX w) (fieldKK w))
  | 0x4#4 => .ok (.sneImm (fieldX w) (fieldKK w))
  | 0x5#4 =>
    if fieldN4 w = 0x0#4 then .ok (.seReg (fieldX w) (fieldY w)) else .error (.unmatched w)
  | 0x6#4 => .ok (.ldImm (fieldX w) (fieldKK w))
  | 0x7#4 => .ok (.addImm (fieldX w) (fieldKK w))
  | 0x8#4 => decodeGroup8 w
  | 0x9#4 =>
    if fieldN4 w = 0x0#4 then .ok (.sneReg (fieldX w) (fieldY w)) else .error (.unmatched w)
  | 0xA#4 => .ok (.ldI (fieldNNN w))
  | 0xB#4 => .ok (.jpV0 (fieldNNN w))
  | 0xC#4 => .ok (.rnd (fieldX w) (fieldKK w))
  | 0xD#4 => .ok (.drw (fieldX w) (fieldY w) (fieldN4 w).toNat)
  | 0xE#4 =>
    if fieldKK w = 0x9E#8 then .ok (.skp (fieldX w))
    else if fieldKK w = 0xA1#8 then .ok (.sknp (fieldX w))
    else .error (.unmatched w)
  | 0xF#4 => decodeGroupF w
  | _ => .error (.unmatched w)

/-- The word two bytes spell, the first byte the more significant (20_memory.md R52). -/
def wordOfBytes (hi lo : Byte) : Word := hi ++ lo

/-- Decode the instruction at the head of a list of bytes and give back the bytes after it: the decoder always
consumes two (R80). -/
def decode : List Byte → Except Reject (Instr × List Byte)
  | hi :: lo :: rest =>
    match decodeWord (wordOfBytes hi lo) with
    | .ok i => .ok (i, rest)
    | .error r => .error r
  | _ => .error .truncated

/-! ### Encoding, from the same table -/

/-- The 4 bits of a register number. -/
def regField (x : Reg) : Nibble := BitVec.ofFin x

/-- Format `NNN` (R82). -/
def wordNNN (n1 : Nibble) (nnn : Addr12) : Word := n1 ++ nnn

/-- Formats `XKK` and `X` (R82): `X` is `XKK` with a fixed low byte. -/
def wordXKK (n1 : Nibble) (x : Reg) (kk : Byte) : Word := n1 ++ regField x ++ kk

/-- Formats `XYN` and `XY` (R82): `XY` is `XYN` with a fixed last digit. -/
def wordXYN (n1 : Nibble) (x y : Reg) (n : Nibble) : Word := n1 ++ regField x ++ regField y ++ n

/-- The word of an instruction, from the patterns of R84. -/
def encode : Instr → Word
  | .cls => 0x00E0#16
  | .ret => 0x00EE#16
  | .jp nnn => wordNNN 0x1 nnn
  | .call nnn => wordNNN 0x2 nnn
  | .seImm x kk => wordXKK 0x3 x kk
  | .sneImm x kk => wordXKK 0x4 x kk
  | .seReg x y => wordXYN 0x5 x y 0x0
  | .ldImm x kk => wordXKK 0x6 x kk
  | .addImm x kk => wordXKK 0x7 x kk
  | .ldReg x y => wordXYN 0x8 x y 0x0
  | .orReg x y => wordXYN 0x8 x y 0x1
  | .andReg x y => wordXYN 0x8 x y 0x2
  | .xorReg x y => wordXYN 0x8 x y 0x3
  | .addReg x y => wordXYN 0x8 x y 0x4
  | .subReg x y => wordXYN 0x8 x y 0x5
  | .shr x y => wordXYN 0x8 x y 0x6
  | .subnReg x y => wordXYN 0x8 x y 0x7
  | .shl x y => wordXYN 0x8 x y 0xE
  | .sneReg x y => wordXYN 0x9 x y 0x0
  | .ldI nnn => wordNNN 0xA nnn
  | .jpV0 nnn => wordNNN 0xB nnn
  | .rnd x kk => wordXKK 0xC x kk
  | .drw x y n => wordXYN 0xD x y (BitVec.ofNat 4 n)
  | .skp x => wordXKK 0xE x 0x9E
  | .sknp x => wordXKK 0xE x 0xA1
  | .ldVxDT x => wordXKK 0xF x 0x07
  | .ldVxK x => wordXKK 0xF x 0x0A
  | .ldDTVx x => wordXKK 0xF x 0x15
  | .ldSTVx x => wordXKK 0xF x 0x18
  | .addI x => wordXKK 0xF x 0x1E
  | .ldF x => wordXKK 0xF x 0x29
  | .ldB x => wordXKK 0xF x 0x33
  | .store x => wordXKK 0xF x 0x55
  | .load x => wordXKK 0xF x 0x65

/-- The high byte of a word, the one stored at the lower address (20_memory.md R52). -/
def highByte (w : Word) : Byte := w.extractLsb' 8 8

/-- The low byte of a word. -/
def lowByte (w : Word) : Byte := w.extractLsb' 0 8

/-- A word as the hardware stores it: high byte first (20_memory.md R52). -/
def bytesOfWord (w : Word) : List Byte := [highByte w, lowByte w]

/-- The two bytes of an instruction. -/
def encodeBytes (i : Instr) : List Byte := bytesOfWord (encode i)

/-! ### The opcode map as the table of R84 writes it -/

/-- One row of the table: a word selects it when `(opcode & mask) = value`. -/
structure OpRow where
  /-- The pattern, the canonical name of the instruction (R89). -/
  pattern : String
  mask : Word
  value : Word
  deriving DecidableEq, Repr

/-- The row an instruction belongs to (R84). -/
def Instr.row : Instr → OpRow
  | .cls => ⟨"00E0", 0xFFFF, 0x00E0⟩
  | .ret => ⟨"00EE", 0xFFFF, 0x00EE⟩
  | .jp _ => ⟨"1nnn", 0xF000, 0x1000⟩
  | .call _ => ⟨"2nnn", 0xF000, 0x2000⟩
  | .seImm _ _ => ⟨"3xkk", 0xF000, 0x3000⟩
  | .sneImm _ _ => ⟨"4xkk", 0xF000, 0x4000⟩
  | .seReg _ _ => ⟨"5xy0", 0xF00F, 0x5000⟩
  | .ldImm _ _ => ⟨"6xkk", 0xF000, 0x6000⟩
  | .addImm _ _ => ⟨"7xkk", 0xF000, 0x7000⟩
  | .ldReg _ _ => ⟨"8xy0", 0xF00F, 0x8000⟩
  | .orReg _ _ => ⟨"8xy1", 0xF00F, 0x8001⟩
  | .andReg _ _ => ⟨"8xy2", 0xF00F, 0x8002⟩
  | .xorReg _ _ => ⟨"8xy3", 0xF00F, 0x8003⟩
  | .addReg _ _ => ⟨"8xy4", 0xF00F, 0x8004⟩
  | .subReg _ _ => ⟨"8xy5", 0xF00F, 0x8005⟩
  | .shr _ _ => ⟨"8xy6", 0xF00F, 0x8006⟩
  | .subnReg _ _ => ⟨"8xy7", 0xF00F, 0x8007⟩
  | .shl _ _ => ⟨"8xyE", 0xF00F, 0x800E⟩
  | .sneReg _ _ => ⟨"9xy0", 0xF00F, 0x9000⟩
  | .ldI _ => ⟨"Annn", 0xF000, 0xA000⟩
  | .jpV0 _ => ⟨"Bnnn", 0xF000, 0xB000⟩
  | .rnd _ _ => ⟨"Cxkk", 0xF000, 0xC000⟩
  | .drw _ _ _ => ⟨"Dxyn", 0xF000, 0xD000⟩
  | .skp _ => ⟨"Ex9E", 0xF0FF, 0xE09E⟩
  | .sknp _ => ⟨"ExA1", 0xF0FF, 0xE0A1⟩
  | .ldVxDT _ => ⟨"Fx07", 0xF0FF, 0xF007⟩
  | .ldVxK _ => ⟨"Fx0A", 0xF0FF, 0xF00A⟩
  | .ldDTVx _ => ⟨"Fx15", 0xF0FF, 0xF015⟩
  | .ldSTVx _ => ⟨"Fx18", 0xF0FF, 0xF018⟩
  | .addI _ => ⟨"Fx1E", 0xF0FF, 0xF01E⟩
  | .ldF _ => ⟨"Fx29", 0xF0FF, 0xF029⟩
  | .ldB _ => ⟨"Fx33", 0xF0FF, 0xF033⟩
  | .store _ => ⟨"Fx55", 0xF0FF, 0xF055⟩
  | .load _ => ⟨"Fx65", 0xF0FF, 0xF065⟩

/-- The 34 rows in the table's order (R84). -/
def opcodeTable : List OpRow :=
  [Instr.cls, .ret, .jp 0, .call 0, .seImm 0 0, .sneImm 0 0, .seReg 0 0, .ldImm 0 0, .addImm 0 0].map Instr.row
  ++ [Instr.ldReg 0 0, .orReg 0 0, .andReg 0 0, .xorReg 0 0, .addReg 0 0, .subReg 0 0, .shr 0 0, .subnReg 0 0,
      .shl 0 0, .sneReg 0 0].map Instr.row
  ++ [Instr.ldI 0, .jpV0 0, .rnd 0 0, .drw 0 0 0, .skp 0, .sknp 0].map Instr.row
  ++ [Instr.ldVxDT 0, .ldVxK 0, .ldDTVx 0, .ldSTVx 0, .addI 0, .ldF 0, .ldB 0, .store 0, .load 0].map Instr.row

/-- A word selects a row when it agrees with the row's value on the bits the mask fixes (R84). -/
abbrev OpRow.Matches (r : OpRow) (w : Word) : Prop := w &&& r.mask = r.value

/-! ### The host's window on the decoder -/

/-- The instruction the decoder reads from the table word `w` of `nbits` bits. The table numbers the bits of the
one 16-bit word, so the word is laid out high byte first and handed to `decode`. -/
def decodeTableWord (nbits w : Nat) : Option Instr :=
  match decode (bytesOfWord (BitVec.ofNat 16 (w % 2 ^ nbits))) with
  | .ok (i, _) => some i
  | .error _ => none

end Sys2Proof
end

