-- ==== Sys2Proof/Config.lean ====
section
/-! DEFINITION. The implementation parameters (00_scope.md R5, R6) and the free inputs (R9, R10).

The fixed sizes are constants of the spec. `cyclesPerTick` is the one tunable number, with its default. The data
parameter `FONT` (R7) has the type `Font`; its default is `Config.font` in Machine/Font.lean. The key samples and the
random draws are free values: constants with no body, so that nothing in Lean knows a value of them. -/

namespace Sys2Proof.Config

/-- `MEM_SIZE`: the number of memory cells (R5). -/
abbrev memSize : Nat := 4096

/-- `ROM_BASE`: where the host loads an image and where the first fetch happens (R5). -/
abbrev romBase : Nat := 0x200

/-- `FONT_LEN`: the font lies in cells 0 to 79, from `FONT_BASE = 0` (R5). -/
abbrev fontLen : Nat := 80

/-- The type of the data parameter `FONT`, the bytes cells 0 to 79 hold at reset (R7). `Machine.State.resetWith` takes
it as an argument, so that a statement can be made for every font. -/
abbrev Font := Vector Byte fontLen

/-- `STACK_DEPTH`: the number of return addresses the call stack holds (R5). -/
abbrev stackDepth : Nat := 16

/-- `FB_H`: the number of framebuffer rows (R5). -/
abbrev fbHeight : Nat := 32

/-- `FB_W`: the number of framebuffer columns (R5). -/
abbrev fbWidth : Nat := 64

/-- `CYCLES_PER_TICK`: instruction cycles between two timer ticks, "original: 10, tunable" (R6).
DESIGN CHOICE, unsafe: the default of R6 (notes/assumptions/6.md). `Machine.cycle` takes the number as an
argument, so that a statement can be made for every batch size. -/
def cyclesPerTick : Nat := 10

/-- The key snapshot number `k` the external input source presents (R9): bit `j` is `KEYS[j]`.
A free value: "any 16-bit value at any `STEP`". Safe (notes/assumptions/1.md). -/
opaque keySample : Nat → BitVec 16

/-- The random byte number `k` (R10). A free value: any value 0..255, independent of all state.
Safe (notes/assumptions/2.md). -/
opaque randomByte : Nat → Byte

end Sys2Proof.Config
end

