-- ==== Sys2Proof/Machine/Font.lean ====
section
/-! DEFINITION. The default of `FONT`, the data parameter of 00_scope.md R7: the 80 bytes that cells 0 to 79 hold at
reset. -/

namespace Sys2Proof.Config

/-- The bytes of the default font, five a glyph, in the order of the digits (the table of 10_state.md R37). -/
def fontBytes : List Byte :=
  [0xF0, 0x90, 0x90, 0x90, 0xF0] ++ [0x20, 0x60, 0x20, 0x20, 0x70]
  ++ [0xF0, 0x10, 0xF0, 0x80, 0xF0] ++ [0xF0, 0x10, 0xF0, 0x10, 0xF0]
  ++ [0x90, 0x90, 0xF0, 0x10, 0x10] ++ [0xF0, 0x80, 0xF0, 0x10, 0xF0]
  ++ [0xF0, 0x80, 0xF0, 0x90, 0xF0] ++ [0xF0, 0x10, 0x20, 0x40, 0x40]
  ++ [0xF0, 0x90, 0xF0, 0x90, 0xF0] ++ [0xF0, 0x90, 0xF0, 0x10, 0xF0]
  ++ [0xF0, 0x90, 0xF0, 0x90, 0x90] ++ [0xE0, 0x90, 0xE0, 0x90, 0xE0]
  ++ [0xF0, 0x80, 0x80, 0x80, 0xF0] ++ [0xE0, 0x90, 0x90, 0x90, 0xE0]
  ++ [0xF0, 0x80, 0xF0, 0x80, 0xF0] ++ [0xF0, 0x80, 0xF0, 0x80, 0x80]

/-- The default `FONT` (10_state.md R37): glyph of digit `d` at cells `5*d` to `5*d+4`.
PRESUMED, unsafe: the customary CHIP-8 font, which the spec supplies "from general knowledge, not in source"
(notes/assumptions/5.md). No meaning of an instruction depends on the bytes. -/
def font : Font := Vector.ofFn fun cell => fontBytes.getD cell.val 0

end Sys2Proof.Config
end

