-- ==== Sys2Proof/Machine/State.lean ====
section
/-! DEFINITION. The architectural state of CHIP8-CORE (10_state.md), its faults and its value after reset.
State is plain data: a register file, numbers, lists and vectors. -/

namespace Sys2Proof.Machine

/-- `MEM[0..4095]` (R29) as the cells that differ from their reset content: addresses strictly rising, no entry
equal to what an unlisted address reads as (`Memory.wf` in Machine/Ops.lean). -/
abbrev Memory := List Host.Cell

/-- `FB[r][c]`: 32 rows of 64 one-bit pixels, `true` a lit one (R30). -/
abbrev FrameBuffer := Vector (Vector Bool Config.fbWidth) Config.fbHeight

/-- The kinds of fatal error (60_exceptions.md R230). -/
inductive FaultKind where
  /-- A memory access touched a cell at or past 4096. -/
  | outOfBounds
  /-- `2nnn` with all 16 stack entries in use. -/
  | stackOverflow
  /-- `00EE` with no stack entry in use. -/
  | stackUnderflow
  /-- The host's `LOAD` of an image longer than 3584 bytes. -/
  | imageTooLarge
  deriving DecidableEq, Repr

/-- What the fault latch records (R33): the kind, and `pc` at the start of the cycle that raised it (none for
`imageTooLarge`, which no cycle raises: R230). -/
structure FaultRecord where
  kind : FaultKind
  atPc : Option Word
  deriving DecidableEq, Repr

/-- Why the machine stops. The first four are the spec's fatal errors (R230); each is raised exactly where the
spec raises it. -/
inductive Fault where
  /-- Raised by instruction fetch, `Dxyn`, `Fx33`, `Fx55`, `Fx65`: `pc` of the instruction and the first cell out
  of range (R58, R230). Safe: the spec's own fault. -/
  | outOfBounds (atPc : Word) (address : Nat)
  /-- Raised by `2nnn` on a full stack (R124). Safe: the spec's own fault. -/
  | stackOverflow (atPc : Word)
  /-- Raised by `00EE` on an empty stack (R122). Safe: the spec's own fault. -/
  | stackUnderflow (atPc : Word)
  /-- Raised by the host's `LOAD` (R234). Safe: the spec's own fault. -/
  | imageTooLarge (length : Nat)
  /-- Raised by a `STEP` of a core whose fault latch is set: there is no such `STEP` (R107). Safe: the machine
  stays where it stopped. -/
  | stopped (latched : FaultRecord)
  deriving DecidableEq, Repr

/-- Why an instruction has no meaning in the model. No instruction of this machine is refused. -/
inductive Refusal where
  /-- Raised only by an arm of `exec` that gives its instruction no meaning yet. Safe: nothing is claimed of it. -/
  | notModelled (mnemonic : String)
  deriving DecidableEq, Repr

/-- All the state of the block (R20 to R34), the two inputs of the coming `STEP` (R9, R10), and the model's own
count of samples taken from the input source. Field names are the spec's. -/
structure State where
  /-- The general registers `V0` to `VF` (R20). -/
  V : Vector Byte 16
  /-- The program counter (R22). -/
  pc : Word
  /-- The index register (R25). -/
  I : Word
  /-- The delay timer (R26). -/
  DT : Byte
  /-- The sound timer (R27). -/
  ST : Byte
  /-- The call stack's 16 entries; those at or above `SP` are dead (R28). -/
  STACK : Vector Word Config.stackDepth
  /-- The number of stack entries in use, 0 to 16 (R28). -/
  SP : Fin (Config.stackDepth + 1)
  /-- The memory (R29). -/
  MEM : Memory
  /-- The framebuffer (R30). -/
  FB : FrameBuffer
  /-- The fault latch (R33). -/
  FAULT : Option FaultRecord
  /-- The platform's batch counter: successful `STEP`s since the last `TICK` (R32). -/
  CYC : Nat
  /-- INPUT of the coming `STEP`: the key snapshot, bit `k` is `KEYS[k]` (R9). -/
  KEYS : BitVec 16
  /-- INPUT of the coming `STEP`: the byte `random_byte()` returns in it (R10). -/
  RND : Byte
  /-- The model's own: how many samples of the two inputs have been taken (notes/assumptions/1.md, 2.md). -/
  samples : Nat
  deriving DecidableEq, Repr

/-- The machine right after `RESET` with the default font (R36, R260); `State.resetWith` in Machine/Ops.lean is the
reset with any font. `pc`, the place of the font (read from unlisted memory), the empty stack are the source's; the
zeros are the spec's decision D2 (notes/assumptions/3.md, 4.md). The two inputs are the first free samples. -/
def State.reset : State where
  V := Vector.replicate 16 0
  pc := 0x200
  I := 0
  DT := 0
  ST := 0
  STACK := Vector.replicate Config.stackDepth 0
  SP := 0
  MEM := []
  FB := Vector.replicate Config.fbHeight (Vector.replicate Config.fbWidth false)
  FAULT := none
  CYC := 0
  KEYS := Config.keySample 0
  RND := Config.randomByte 0
  samples := 1

/-- The outcome of running an instruction. -/
abbrev Result := Host.Outcome State Fault Refusal

end Sys2Proof.Machine
end

