-- ==== Sys2Proof/Machine/Ops.lean ====
section
/-! DEFINITION. The named operations over memory, registers, the call stack, the program counter, the framebuffer,
the timers and the fault latch. Every meaning is written over these. -/

namespace Sys2Proof.Machine

/-! ### Memory (20_memory.md) -/

/-- The reset content of a cell under the parameter `FONT`: the font in cells 0 to 79 and 0 above (R36, R61, R7).
The zeros are the spec's decision D2 (notes/assumptions/3.md). -/
def Memory.resetContent (font : Config.Font) (a : Nat) : Byte := if h : a < Config.fontLen then font[a] else 0

/-- What a cell that is not listed reads as: its reset content under the default font. It is the base the list of cells
differs from and fixes no cell: a memory with any content, one reset with another font too (`State.resetWith`), is a
list over it (notes/assumptions/5.md). -/
def Memory.background (a : Nat) : Byte := Memory.resetContent Config.font a

/-- One cell (R60: reading has no side effect). The bounds test is `memRead`'s. -/
def Memory.read : Memory → Nat → Byte
  | [], a => Memory.background a
  | (b, v) :: m, a => if a = b then v else Memory.read m a

/-- Write one cell and keep the canonical form. The bounds test is `memWrite`'s. -/
def Memory.write : Memory → Nat → Byte → Memory
  | [], a, v => if v = Memory.background a then [] else [(a, v)]
  | (b, w) :: m, a, v =>
    if a < b then
      if v = Memory.background a then (b, w) :: m else (a, v) :: (b, w) :: m
    else if a = b then
      if v = Memory.background a then m else (a, v) :: m
    else (b, w) :: Memory.write m a v

/-- The canonical form: addresses strictly rising and inside the address space, no entry equal to what an unlisted
address reads as. Equal memories are then equal lists. -/
abbrev Memory.wf (m : Memory) : Prop :=
  m.Pairwise (fun c d => c.1 < d.1) ∧ ∀ c ∈ m, c.1 < Config.memSize ∧ c.2 ≠ Memory.background c.1

/-- The `n` bytes at `a`, lowest address first, without the bounds test. -/
def Memory.readBytes (m : Memory) (a : Nat) : Nat → List Byte
  | 0 => []
  | n + 1 => m.read a :: Memory.readBytes m (a + 1) n

/-- Write a list of bytes from `a` upward, lowest address first, without the bounds test. -/
def Memory.writeBytes (m : Memory) (a : Nat) : List Byte → Memory
  | [] => m
  | v :: vs => Memory.writeBytes (m.write a v) (a + 1) vs

/-- The bounds test of an access of `n` cells at `a`: every touched cell is below 4096 (R56, R57). An access that
ends at cell 4095 passes (the spec's D7, notes/assumptions/11.md); one of no cells touches nothing. -/
def inRange (a n : Nat) : Bool := n = 0 || a + n ≤ Config.memSize

/-- The first cell out of range of a failing access (R58). -/
def firstOutOfRange (a : Nat) : Nat := max a Config.memSize

/-- `MemRead(a, n)` (R58): the bytes, or the first address out of range. Addresses are plain sums, never wrapped
(R56). -/
def memRead (m : Memory) (a n : Nat) : Except Nat (List Byte) :=
  if inRange a n then .ok (m.readBytes a n) else .error (firstOutOfRange a)

/-- `MemWrite(a, n, v)` with `n` the length of `v` (R58): the test comes before the first write (the spec's D22,
notes/assumptions/17.md). -/
def memWrite (m : Memory) (a : Nat) (vs : List Byte) : Except Nat Memory :=
  if inRange a vs.length then .ok (m.writeBytes a vs) else .error (firstOutOfRange a)

/-- One byte of memory as a claim reads it. -/
def State.byteAt (s : State) (a : Nat) : Byte := s.MEM.read a

/-! ### General registers (R20, R21): none is hard-wired -/

/-- `V[x]`. -/
def State.reg (s : State) (x : Reg) : Byte := s.V[x.val]

/-- `V[x] <- b`. -/
def State.setReg (s : State) (x : Reg) (b : Byte) : State := { s with V := s.V.set x.val b }

/-- `V[0], …, V[x]` in order, `x + 1` of them (R174). -/
def State.regsUpTo (s : State) (x : Reg) : List Byte := s.V.toList.take (x.val + 1)

/-- `V[i] <- b[0]`, `V[i+1] <- b[1]`, … (R175). -/
def setRegsFrom : List Byte → Nat → Vector Byte 16 → Vector Byte 16
  | [], _, v => v
  | b :: bs, i, v => setRegsFrom bs (i + 1) (v.setIfInBounds i b)

/-! ### Program counter (R22, R23, R104) -/

/-- The default advance `pc <- pc + 2` (R104). -/
def State.advance (s : State) : State := { s with pc := s.pc + 2 }

/-- The extra `pc <- pc + 2` of a taken skip; the default advance comes on top (R126, R130). -/
def State.skipIf (c : Bool) (s : State) : State := if c then { s with pc := s.pc + 2 } else s

/-- `pc <- target` with `no_advance` (R105). -/
def State.jumpTo (s : State) (target : Word) : State := { s with pc := target }

/-! ### The call stack controller (41_control_flow.md R120, R121) -/

/-- `Push(v)` (R120). -/
def State.push (s : State) (v : Word) : Except Fault State :=
  if h : s.SP.val < Config.stackDepth then
    .ok { s with STACK := s.STACK.set s.SP.val v h, SP := ⟨s.SP.val + 1, Nat.succ_lt_succ h⟩ }
  else .error (.stackOverflow s.pc)

/-- `Pop()` (R121): the popped value and the state after. The slot it frees keeps its content (R28). -/
def State.pop (s : State) : Except Fault (Word × State) :=
  if h : s.SP.val = 0 then .error (.stackUnderflow s.pc)
  else
    have below : s.SP.val - 1 < Config.stackDepth := by have := s.SP.isLt; omega
    .ok (s.STACK[s.SP.val - 1], { s with SP := ⟨s.SP.val - 1, Nat.lt_succ_of_lt below⟩ })

/-! ### Raising a fatal error: the one way a cycle ends without a next state (60_exceptions.md R235) -/

/-- `raise OutOfBounds(address)`: `at` is the `pc` of the instruction, which still holds during execution (R103). -/
def State.raiseOutOfBounds (s : State) (address : Nat) : Result := .fault (.outOfBounds s.pc address)

/-- What the latch records of a fault (R33, R230). -/
def Fault.record : Fault → FaultRecord
  | .outOfBounds atPc _ => ⟨.outOfBounds, some atPc⟩
  | .stackOverflow atPc => ⟨.stackOverflow, some atPc⟩
  | .stackUnderflow atPc => ⟨.stackUnderflow, some atPc⟩
  | .imageTooLarge _ => ⟨.imageTooLarge, none⟩
  | .stopped latched => latched

/-- The number of a kind in the fault latch (R230, the spec's D9, notes/assumptions/13.md). -/
def FaultKind.code : FaultKind → Nat
  | .outOfBounds => 1
  | .stackOverflow => 2
  | .stackUnderflow => 3
  | .imageTooLarge => 4

/-- The fault latch takes the kind and `at` (R33, R235): set by the first fatal error, never cleared. -/
def State.latch (s : State) (f : Fault) : State :=
  { s with FAULT := match s.FAULT with
                    | none => some f.record
                    | some r => some r }

/-! ### The framebuffer (R30) -/

/-- One pixel. -/
def FrameBuffer.pixel (fb : FrameBuffer) (r : Fin Config.fbHeight) (c : Fin Config.fbWidth) : Bool :=
  fb[r.val][c.val]

/-- `FB[r][c] <- FB[r][c] ^ 1`. -/
def FrameBuffer.flip (fb : FrameBuffer) (r : Fin Config.fbHeight) (c : Fin Config.fbWidth) : FrameBuffer :=
  fb.set r.val (fb[r.val].set c.val (!fb[r.val][c.val]))

/-- Every pixel dark (R190). -/
def FrameBuffer.dark : FrameBuffer := Vector.replicate Config.fbHeight (Vector.replicate Config.fbWidth false)

/-- One pixel as a claim reads it. -/
def State.pixel (s : State) (r : Fin Config.fbHeight) (c : Fin Config.fbWidth) : Bool := s.FB.pixel r c

/-! ### The timers (45_keypad_timers.md R222) -/

/-- One timer's share of a tick: down by one, floor zero. -/
def countDown (t : Byte) : Byte := if t = 0 then 0 else t - 1

/-- `TICK` (R222): both timers take the same tick; nothing else changes. -/
def State.tick (s : State) : State := { s with DT := countDown s.DT, ST := countDown s.ST }

/-! ### The host (R12) -/

/-- `RESET` with the parameter `FONT` an argument (R7, R36, R260): `State.reset` with the given bytes in cells 0 to 79.
`State.reset` is the case of the default font. -/
def State.resetWith (font : Config.Font) : State :=
  { State.reset with MEM := State.reset.MEM.writeBytes 0 font.toList }

/-- `LOAD(bytes)` (R12, R234, R262): the image goes verbatim to 0x200 and upward, or the load fails. The host
loads once, after `RESET` and before the first `STEP` (the spec's D19, notes/assumptions/15.md). -/
def State.loadImage (s : State) (image : List Byte) : Result :=
  if Config.romBase + image.length > Config.memSize then .fault (.imageTooLarge image.length)
  else .next { s with MEM := s.MEM.writeBytes Config.romBase image }

/-- `s` with a word stored at `pc`, high byte first (R52), as a `LOAD` would have put it there. Cells past the end
of memory do not exist, and nothing is stored in them (notes/assumptions/18.md). -/
def State.placeWord (s : State) (w : Word) : State :=
  if inRange s.pc.toNat 2 then { s with MEM := s.MEM.writeBytes s.pc.toNat (bytesOfWord w) } else s

end Sys2Proof.Machine
end

