-- ==== Sys2Proof/Machine/Flags.lean ====
section
/-! DEFINITION. The values `VF` receives as a flag (10_state.md R24). The machine has no other flag. -/

namespace Sys2Proof.Machine

/-- A flag as `VF` holds it: 1 or 0. -/
def flagByte (c : Bool) : Byte := if c then 1 else 0

/-- `8xy4`: carry out of the 8-bit add, set when the sum exceeds 255 (R146). -/
def carryOut (a b : Byte) : Bool := 255 < a.toNat + b.toNat

/-- `8xy5`, `8xy7`: no borrow, set when the minuend is at least the subtrahend (R147, R149). -/
def noBorrow (minuend subtrahend : Byte) : Bool := subtrahend.toNat ≤ minuend.toNat

/-- `8xy6`: the bit shifted out at the bottom (R148). -/
def lowBitOut (a : Byte) : Byte := a &&& 1

/-- `8xyE`: the bit shifted out at the top (R150). -/
def highBitOut (a : Byte) : Byte := (a &&& 0x80) >>> 7

/-- `VF <- flag`. -/
def State.setVF (s : State) (flag : Byte) : State := s.setReg VF flag

end Sys2Proof.Machine
end

