-- ==== Sys2Proof/Machine/Alu.lean ====
section
/-! DEFINITION. Register load, arithmetic, bitwise, shift and random instructions (42_alu.md). All take the default
advance. Statements run in the order written, each reading the state the earlier ones left (00_scope.md R15, the
spec's D4, notes/assumptions/8.md): the flag goes to `VF` BEFORE the result is computed, so `x` or `y` naming
register 15 reads the flag. Arithmetic is modulo 256 (R152). -/

namespace Sys2Proof.Machine

/-- `6xkk` (R140). -/
def execLdImm (x : Reg) (kk : Byte) (s : State) : Result := .next (s.setReg x kk).advance

/-- `7xkk` (R141): the carry is discarded, `VF` is not written. -/
def execAddImm (x : Reg) (kk : Byte) (s : State) : Result := .next (s.setReg x (s.reg x + kk)).advance

/-- `8xy0` (R142). -/
def execLdReg (x y : Reg) (s : State) : Result := .next (s.setReg x (s.reg y)).advance

/-- `8xy1` (R143). -/
def execOrReg (x y : Reg) (s : State) : Result := .next (s.setReg x (s.reg x ||| s.reg y)).advance

/-- `8xy2` (R144). -/
def execAndReg (x y : Reg) (s : State) : Result := .next (s.setReg x (s.reg x &&& s.reg y)).advance

/-- `8xy3` (R145). -/
def execXorReg (x y : Reg) (s : State) : Result := .next (s.setReg x (s.reg x ^^^ s.reg y)).advance

/-- `8xy4` (R146): both registers are read before any write. -/
def execAddReg (x y : Reg) (s : State) : Result :=
  let flagged := s.setVF (flagByte (carryOut (s.reg x) (s.reg y)))
  .next (flagged.setReg x (s.reg x + s.reg y)).advance

/-- `8xy5` (R147): the registers are read again after the write of `VF`. -/
def execSubReg (x y : Reg) (s : State) : Result :=
  let flagged := s.setVF (flagByte (noBorrow (s.reg x) (s.reg y)))
  .next (flagged.setReg x (flagged.reg x - flagged.reg y)).advance

/-- `8xy6` (R148): logical shift by one of `V[x]`; `V[y]` is not read. -/
def execShr (x _y : Reg) (s : State) : Result :=
  let flagged := s.setVF (lowBitOut (s.reg x))
  .next (flagged.setReg x (flagged.reg x >>> 1)).advance

/-- `8xy7` (R149): the registers are read again after the write of `VF`. -/
def execSubnReg (x y : Reg) (s : State) : Result :=
  let flagged := s.setVF (flagByte (noBorrow (s.reg y) (s.reg x)))
  .next (flagged.setReg x (flagged.reg y - flagged.reg x)).advance

/-- `8xyE` (R150): shift left by one of `V[x]`; `V[y]` is not read. -/
def execShl (x _y : Reg) (s : State) : Result :=
  let flagged := s.setVF (highBitOut (s.reg x))
  .next (flagged.setReg x (flagged.reg x <<< 1)).advance

/-- `Cxkk` (R151): one draw of the input `RND`, masked. -/
def execRnd (x : Reg) (kk : Byte) (s : State) : Result := .next (s.setReg x (s.RND &&& kk)).advance

end Sys2Proof.Machine
end

