-- ==== Sys2Proof/Machine/Operands.lean ====
section
/-! DEFINITION. The operand forms: immediates, the key a register selects, the address forms over `V[0]` and `I`,
the font address and the decimal digits of a register. -/

namespace Sys2Proof.Machine

/-- `zext_16(nnn)`: an address immediate, upper four bits 0 (30_encoding.md R83). -/
def addressImm (nnn : Addr12) : Word := nnn.setWidth 16

/-- The address of the next instruction but for skips and jumps, `a + 2` (R124). -/
def State.returnAddress (s : State) : Word := s.pc + 2

/-- `(base + offset) mod 4096`, the wrapped sum of `Bnnn` and `Fx1E` (R125, R171). -/
def wrap12 (base : Word) (offset : Byte) : Word := BitVec.ofNat 16 ((base.toNat + offset.toNat) % 4096)

/-- `V[x] * 5`, in 16 bits, no wrap and no mask (R172). -/
def glyphAddress (b : Byte) : Word := BitVec.ofNat 16 (b.toNat * 5)

/-- The base of a memory operand, `I` as a number; element `i` is at `I + i`, a plain sum (R177, R56). -/
def State.base (s : State) : Nat := s.I.toNat

/-- Hundreds, tens and ones of a byte (R173). -/
def decimalDigits (b : Byte) : List Byte :=
  [BitVec.ofNat 8 (b.toNat / 100), BitVec.ofNat 8 (b.toNat / 10 % 10), BitVec.ofNat 8 (b.toNat % 10)]

/-- `KEYS[b & 0xF]`: the key a register selects (R210); the mask keeps the index in 0..15. -/
def State.keyHeld (s : State) (b : Byte) : Bool := s.KEYS.getLsbD (b &&& 0x0F#8).toNat

/-- The least `k` from `k₀` on, of the `n` keys there, whose flag is set (R212). -/
def firstKeyFrom (keys : BitVec 16) : Nat → Nat → Option Nat
  | 0, _ => none
  | n + 1, k => if keys.getLsbD k then some k else firstKeyFrom keys n (k + 1)

/-- The least key held, if any: the ascending scan of `Fx0A` (R212). -/
def State.firstKey (s : State) : Option Nat := firstKeyFrom s.KEYS 16 0

end Sys2Proof.Machine
end

