-- ==== Sys2Proof/Machine/Control.lean ====
section
/-! DEFINITION. Control transfer (41_control_flow.md): return, jumps, call, the four register skips.
During execution `pc` is the address of the instruction (R22). -/

namespace Sys2Proof.Machine

/-- `00EE` (R122): `pc <- Pop()`, no advance; the popped value is used as it is. -/
def execRet (s : State) : Result :=
  match s.pop with
  | .ok (target, s') => .next (s'.jumpTo target)
  | .error f => .fault f

/-- `1nnn` (R123). -/
def execJp (nnn : Addr12) (s : State) : Result := .next (s.jumpTo (addressImm nnn))

/-- `2nnn` (R124): push the address after the call, then jump. -/
def execCall (nnn : Addr12) (s : State) : Result :=
  match s.push s.returnAddress with
  | .ok s' => .next (s'.jumpTo (addressImm nnn))
  | .error f => .fault f

/-- `3xkk` (R126). -/
def execSeImm (x : Reg) (kk : Byte) (s : State) : Result := .next (s.skipIf (s.reg x = kk)).advance

/-- `4xkk` (R127). -/
def execSneImm (x : Reg) (kk : Byte) (s : State) : Result := .next (s.skipIf (s.reg x ≠ kk)).advance

/-- `5xy0` (R128). -/
def execSeReg (x y : Reg) (s : State) : Result := .next (s.skipIf (s.reg x = s.reg y)).advance

/-- `9xy0` (R129). -/
def execSneReg (x y : Reg) (s : State) : Result := .next (s.skipIf (s.reg x ≠ s.reg y)).advance

/-- `Bnnn` (R125): always `V[0]`; the sum wraps modulo 4096. -/
def execJpV0 (nnn : Addr12) (s : State) : Result := .next (s.jumpTo (wrap12 (addressImm nnn) (s.reg 0)))

end Sys2Proof.Machine
end

