-- ==== Sys2Proof/Machine/Display.lean ====
section
/-! DEFINITION. Display instructions and the XOR-blit and collision engine (44_display.md). -/

namespace Sys2Proof.Machine

/-- Bit `b` of a sprite row, `b = 0` the most significant (R191). -/
def spriteBit (row : Byte) (b : Nat) : Bool := row.getLsbD (7 - b)

/-- The target row `(y0 + r) mod 32` (R191). -/
def targetRow (y : Nat) : Fin Config.fbHeight := ⟨y % 32, Nat.mod_lt _ (by decide)⟩

/-- The target column `(x0 + b) mod 64` (R191). -/
def targetCol (x : Nat) : Fin Config.fbWidth := ⟨x % 64, Nat.mod_lt _ (by decide)⟩

/-- The body of the loop of R191 for bit `b` of a sprite row whose target row is `y mod 32`. A source bit of 0
leaves its pixel alone and cannot collide. -/
def blitBit (row : Byte) (x0 y b : Nat) (drawn : FrameBuffer × Bool) : FrameBuffer × Bool :=
  if spriteBit row b then
    (drawn.1.flip (targetRow y) (targetCol (x0 + b)),
      drawn.2 || drawn.1.pixel (targetRow y) (targetCol (x0 + b)))
  else drawn

/-- `n` bits of one sprite row from bit `b` on, most significant first (R191). -/
def blitBits (row : Byte) (x0 y : Nat) : (n b : Nat) → FrameBuffer × Bool → FrameBuffer × Bool
  | 0, _, drawn => drawn
  | n + 1, b, drawn => blitBits row x0 y n (b + 1) (blitBit row x0 y b drawn)

/-- The rows of a sprite from the top, the first at row `y` (R191). -/
def blitRows (x0 : Nat) : List Byte → Nat → FrameBuffer × Bool → FrameBuffer × Bool
  | [], _, drawn => drawn
  | row :: rows, y, drawn => blitRows x0 rows (y + 1) (blitBits row x0 y 8 0 drawn)

/-- `DrawSprite(rows, x0, y0)` (R191): the framebuffer after, and whether a lit source bit met a lit pixel. -/
def drawSprite (fb : FrameBuffer) (rows : List Byte) (x0 y0 : Nat) : FrameBuffer × Bool :=
  blitRows x0 rows y0 (fb, false)

/-- `00E0` (R190). -/
def execCls (s : State) : Result := .next { s with FB := FrameBuffer.dark }.advance

/-- `Dxyn` (R192): `VF` is cleared first and the coordinates are read after that (the spec's D5,
notes/assumptions/9.md). -/
def execDrw (x y : Reg) (n : Nat) (s : State) : Result :=
  let cleared := s.setVF 0
  match memRead cleared.MEM cleared.base n with
  | .ok rows =>
    let drawn := drawSprite cleared.FB rows (cleared.reg x).toNat (cleared.reg y).toNat
    .next ({ cleared with FB := drawn.1 }.setVF (flagByte drawn.2)).advance
  | .error address => s.raiseOutOfBounds address

end Sys2Proof.Machine
end

