-- ==== Sys2Proof/Machine/IndexMemory.lean ====
section
/-! DEFINITION. Index register and memory instructions (43_index_memory.md). All take the default advance, and no
memory access changes `I` (R177). -/

namespace Sys2Proof.Machine

/-- `Annn` (R170). -/
def execLdI (nnn : Addr12) (s : State) : Result := .next { s with I := addressImm nnn }.advance

/-- `Fx1E` (R171): wraps modulo 4096, `VF` is not written. -/
def execAddI (x : Reg) (s : State) : Result := .next { s with I := wrap12 s.I (s.reg x) }.advance

/-- `Fx29` (R172): the whole 8-bit value is multiplied. -/
def execLdF (x : Reg) (s : State) : Result := .next { s with I := glyphAddress (s.reg x) }.advance

/-- Store bytes at `I` and advance, or raise OutOfBounds: the shared body of `Fx33` and `Fx55`. -/
def State.storeAtI (s : State) (bytes : List Byte) : Result :=
  match memWrite s.MEM s.base bytes with
  | .ok m => .next { s with MEM := m }.advance
  | .error address => s.raiseOutOfBounds address

/-- `Fx33` (R173). -/
def execLdB (x : Reg) (s : State) : Result := s.storeAtI (decimalDigits (s.reg x))

/-- `Fx55` (R174). -/
def execStore (x : Reg) (s : State) : Result := s.storeAtI (s.regsUpTo x)

/-- `Fx65` (R175). -/
def execLoad (x : Reg) (s : State) : Result :=
  match memRead s.MEM s.base (x.val + 1) with
  | .ok bytes => .next { s with V := setRegsFrom bytes 0 s.V }.advance
  | .error address => s.raiseOutOfBounds address

end Sys2Proof.Machine
end

