-- ==== Sys2Proof/Machine/KeypadTimers.lean ====
section
/-! DEFINITION. Keypad and timer instructions (45_keypad_timers.md). A `STEP` sees one snapshot of the keys, the
field `KEYS` (R9). -/

namespace Sys2Proof.Machine

/-- `Ex9E` (R210): skip when the selected key is held. -/
def execSkp (x : Reg) (s : State) : Result := .next (s.skipIf (s.keyHeld (s.reg x))).advance

/-- `ExA1` (R211): skip when the selected key is not held. -/
def execSknp (x : Reg) (s : State) : Result := .next (s.skipIf (!s.keyHeld (s.reg x))).advance

/-- `Fx0A` (R212): with no key held nothing changes, `pc` included, and the next cycle executes it again. -/
def execLdVxK (x : Reg) (s : State) : Result :=
  .next (match s.firstKey with
    | some k => (s.setReg x (BitVec.ofNat 8 k)).advance
    | none => s)

/-- `Fx07` (R213). -/
def execLdVxDT (x : Reg) (s : State) : Result := .next (s.setReg x s.DT).advance

/-- `Fx15` (R214). -/
def execLdDTVx (x : Reg) (s : State) : Result := .next { s with DT := s.reg x }.advance

/-- `Fx18` (R215). -/
def execLdSTVx (x : Reg) (s : State) : Result := .next { s with ST := s.reg x }.advance

end Sys2Proof.Machine
end

