-- ==== Sys2Proof/Machine/Cycle.lean ====
section
/-! DEFINITION. The instruction cycle and the reference schedule (40_cycle.md; 45_keypad_timers.md R223):
fetch, decode, execute, count the cycle, tick when a batch is full, take the next sample of the inputs. -/

namespace Sys2Proof.Machine

/-- Fetch (R101): the two cells at `pc`, each a bounds-checked read, high byte first; or the first address out of
range. -/
def State.fetch (s : State) : Except Nat Word :=
  match memRead s.MEM s.pc.toNat 1, memRead s.MEM (s.pc.toNat + 1) 1 with
  | .ok [hi], .ok [lo] => .ok (wordOfBytes hi lo)
  | .error address, _ => .error address
  | _, .error address => .error address
  | _, _ => .error s.pc.toNat

/-- A word that matches no row (R106): nothing, then the default advance. -/
def execUnmatched (s : State) : Result := .next s.advance

/-- Decode and execute (R102, R103). A rejected word is the no-op of R106. -/
def runWord (w : Word) (s : State) : Result :=
  match decodeWord w with
  | .ok i => exec i s
  | .error _ => execUnmatched s

/-- Count a cycle of the batch (R108, R223): when `CYC` reaches `period` a `TICK` follows and `CYC` starts again.
A `CYC` at or past `period`, which no run reaches, ticks at once (notes/assumptions/7.md). -/
def State.countCycle (period : Nat) (s : State) : State :=
  if period ≤ s.CYC + 1 then { s.tick with CYC := 0 } else { s with CYC := s.CYC + 1 }

/-- The inputs of the next `STEP`: fresh free values (R9, R10, notes/assumptions/1.md, 2.md). -/
def State.sampleInputs (s : State) : State :=
  { s with KEYS := Config.keySample s.samples, RND := Config.randomByte s.samples, samples := s.samples + 1 }

/-- What the platform does after an executed instruction: count it, tick if the batch is full, sample. A cycle that
faults is followed by nothing (R108). -/
def finishCycle (period : Nat) : Result → Result
  | .next s => .next (s.countCycle period).sampleInputs
  | .fault f => .fault f
  | .refused r => .refused r

/-- One `STEP` (R100) under the reference schedule with batch size `period` (R223). A faulted core takes none
(R107). -/
def cycle (period : Nat) (s : State) : Result :=
  match s.FAULT with
  | some latched => .fault (.stopped latched)
  | none =>
    match s.fetch with
    | .error address => s.raiseOutOfBounds address
    | .ok w => finishCycle period (runWord w s)

/-- The state the block is left in by a `STEP` event: the next state, or, after a fatal error, the state with the
fault latch set (R33, R235). Apart from the latch the spec defines no state after a fault, and no claim reads one
(the spec's D8, notes/assumptions/12.md). -/
def afterStep (period : Nat) (s : State) : State :=
  match cycle period s with
  | .next t => t
  | .fault f => s.latch f
  | .refused _ => s

end Sys2Proof.Machine
end

