-- ==== Sys2Proof/Machine/Step.lean ====
section
/-! DEFINITION. The step of the machine: one `STEP` under the reference schedule at the default batch size
(00_scope.md R6), and where the host places an instruction for it. -/

namespace Sys2Proof.Machine

/-- One step of the machine. -/
def step (s : State) : Host.Outcome State Fault Refusal := cycle Config.cyclesPerTick s

/-- `s` with the table word `w` of `nbits` bits stored where the next fetch reads: at `pc`, high byte first. It
stands for the host's `LOAD` (R12, notes/assumptions/15.md). -/
def State.withFetchWord (s : State) (nbits w : Nat) : State := s.placeWord (BitVec.ofNat 16 (w % 2 ^ nbits))

end Sys2Proof.Machine
end

