-- ==== Sys2Proof/Safety.lean ====
section
/-! DEFINITION. The terms claims are stated in: the invariant of a running core, what "unchanged" means for each
kind of state, which instruction may write what, runs of instructions, and when two states look alike. -/

namespace Sys2Proof.Machine

/-! ### A running core -/

/-- What holds between two cycles of a run (10_state.md R23, R25, R28, R32, R33), at batch size `period`. -/
structure State.Inv (period : Nat) (s : State) : Prop where
  /-- Memory keeps its canonical form. -/
  mem_canonical : s.MEM.wf
  /-- `I ≤ 4095` (R25). -/
  index_in_memory : s.I.toNat ≤ 4095
  /-- `pc ≤ 4098`: at most a taken skip past the last fetchable word (R23, R130). -/
  pc_bounded : s.pc.toNat ≤ 4098
  /-- Every live return address is at most 4096 (R23). -/
  return_addresses_bounded : ∀ (j : Nat) (h : j < Config.stackDepth), j < s.SP.val → (s.STACK[j]).toNat ≤ 4096
  /-- The batch counter is below the batch size (R32). -/
  batch_counter_bounded : s.CYC < period
  /-- The core has not failed (R33). -/
  not_faulted : s.FAULT = none

/-- `pc` can be fetched from: both bytes are in memory (20_memory.md R59). -/
abbrev State.Fetchable (s : State) : Prop := s.pc.toNat ≤ 4094

/-- The word at `pc`, high byte first (20_memory.md R52). -/
def State.wordAtPc (s : State) : Word := wordOfBytes (s.byteAt s.pc.toNat) (s.byteAt (s.pc.toNat + 1))

/-! ### What an instruction leaves alone -/

/-- Every general register but those listed is unchanged. -/
def KeepsRegsExcept (written : List Reg) (s t : State) : Prop := ∀ r, r ∉ written → t.reg r = s.reg r

/-- Every byte of memory reads as before. -/
def KeepsMemory (s t : State) : Prop := ∀ a, t.byteAt a = s.byteAt a

/-- Every byte of memory outside the `n` bytes at `a` reads as before. -/
def KeepsMemoryOutside (a n : Nat) (s t : State) : Prop := ∀ b, ¬(a ≤ b ∧ b < a + n) → t.byteAt b = s.byteAt b

/-- Every pixel is unchanged. -/
def KeepsDisplay (s t : State) : Prop := ∀ r c, t.pixel r c = s.pixel r c

/-- The call stack is unchanged, dead entries too. -/
def KeepsStack (s t : State) : Prop := t.SP = s.SP ∧ t.STACK = s.STACK

/-- Both timers are unchanged. -/
def KeepsTimers (s t : State) : Prop := t.DT = s.DT ∧ t.ST = s.ST

/-- The fault latch, the batch counter, the inputs and the sample count are unchanged. -/
def KeepsPlatform (s t : State) : Prop :=
  t.FAULT = s.FAULT ∧ t.CYC = s.CYC ∧ t.KEYS = s.KEYS ∧ t.RND = s.RND ∧ t.samples = s.samples

/-- The registers an instruction writes: its destinations and, where it has one, the flag register, from the lists
of writers in 10_state.md R20. -/
def regsWritten : Instr → List Reg
  | .ldImm x _ | .addImm x _ | .rnd x _ => [x]
  | .ldReg x _ | .orReg x _ | .andReg x _ | .xorReg x _ => [x]
  | .addReg x _ | .subReg x _ | .shr x _ | .subnReg x _ | .shl x _ => [x, VF]
  | .drw _ _ _ => [VF]
  | .ldVxDT x | .ldVxK x => [x]
  | .load x => (List.finRange 16).filter (· ≤ x)
  | .cls | .ret | .jp _ | .call _ | .seImm _ _ | .sneImm _ _ | .seReg _ _ | .sneReg _ _ | .ldI _ | .jpV0 _ => []
  | .skp _ | .sknp _ | .ldDTVx _ | .ldSTVx _ | .addI _ | .ldF _ | .ldB _ | .store _ => []

/-- How many bytes an instruction stores, from `I` upward (20_memory.md R51). -/
def bytesStored : Instr → Nat
  | .ldB _ => 3
  | .store x => x.val + 1
  | .cls | .ret | .jp _ | .call _ | .seImm _ _ | .sneImm _ _ | .seReg _ _ | .sneReg _ _ | .ldI _ | .jpV0 _ => 0
  | .ldImm _ _ | .addImm _ _ | .rnd _ _ | .ldReg _ _ | .orReg _ _ | .andReg _ _ | .xorReg _ _ => 0
  | .addReg _ _ | .subReg _ _ | .shr _ _ | .subnReg _ _ | .shl _ _ | .drw _ _ _ => 0
  | .skp _ | .sknp _ | .ldVxDT _ | .ldVxK _ | .ldDTVx _ | .ldSTVx _ | .addI _ | .ldF _ | .load _ => 0

/-- When an instruction raises a fatal error (60_exceptions.md R230). -/
def FaultCondition (s : State) : Instr → Prop
  | .ret => s.SP.val = 0
  | .call _ => s.SP.val = 16
  | .drw _ _ n => 1 ≤ n ∧ 4096 < s.I.toNat + n
  | .ldB _ => 4096 < s.I.toNat + 3
  | .store x | .load x => 4096 < s.I.toNat + x.val + 1
  | .cls | .jp _ | .seImm _ _ | .sneImm _ _ | .seReg _ _ | .sneReg _ _ | .ldI _ | .jpV0 _ => False
  | .ldImm _ _ | .addImm _ _ | .rnd _ _ | .ldReg _ _ | .orReg _ _ | .andReg _ _ | .xorReg _ _ => False
  | .addReg _ _ | .subReg _ _ | .shr _ _ | .subnReg _ _ | .shl _ _ => False
  | .skp _ | .sknp _ | .ldVxDT _ | .ldVxK _ | .ldDTVx _ | .ldSTVx _ | .addI _ | .ldF _ => False

/-- The one kind of error an instruction can raise (60_exceptions.md R238); meant only where it can raise one. -/
def faultKind : Instr → FaultKind
  | .ret => .stackUnderflow
  | .call _ => .stackOverflow
  | .drw _ _ _ | .ldB _ | .store _ | .load _ => .outOfBounds
  | .cls | .jp _ | .seImm _ _ | .sneImm _ _ | .seReg _ _ | .sneReg _ _ | .ldI _ | .jpV0 _ => .outOfBounds
  | .ldImm _ _ | .addImm _ _ | .rnd _ _ | .ldReg _ _ | .orReg _ _ | .andReg _ _ | .xorReg _ _ => .outOfBounds
  | .addReg _ _ | .subReg _ _ | .shr _ _ | .subnReg _ _ | .shl _ _ => .outOfBounds
  | .skp _ | .sknp _ | .ldVxDT _ | .ldVxK _ | .ldDTVx _ | .ldSTVx _ | .addI _ | .ldF _ => .outOfBounds

/-! ### Sprites -/

/-- A lit bit of the sprite of `n` rows at `I`, drawn at column `x0` and row `y0`, lands on pixel `(r, c)`: the set
`S` of 44_display.md R193. -/
def SpriteCovers (s : State) (n x0 y0 : Nat) (r : Fin Config.fbHeight) (c : Fin Config.fbWidth) : Prop :=
  ∃ k b : Nat, k < n ∧ b < 8 ∧ (s.byteAt (s.I.toNat + k)).getLsbD (7 - b) = true
    ∧ (y0 + k) % 32 = r.val ∧ (x0 + b) % 64 = c.val

/-- The coordinate `Dxyn` reads from `V[x]` after `VF` was cleared (44_display.md R192 corner case (c)). -/
def drawCoordinate (s : State) (x : Reg) : Nat := if x = VF then 0 else (s.reg x).toNat

/-! ### The end of a cycle -/

/-- `t` is `s` after its cycle was counted in a batch of `period` (45_keypad_timers.md R223): one more cycle, or a full
batch with a tick of both timers. -/
def CycleCounted (period : Nat) (s t : State) : Prop :=
  (s.CYC + 1 < period → t.CYC = s.CYC + 1 ∧ t.DT = s.DT ∧ t.ST = s.ST) ∧
  (s.CYC + 1 = period → t.CYC = 0 ∧ t.DT.toNat = s.DT.toNat - 1 ∧ t.ST.toNat = s.ST.toNat - 1)

/-- The registers, `I`, the stack, memory and the framebuffer are the same. -/
def SameProgramState (s t : State) : Prop :=
  t.V = s.V ∧ t.I = s.I ∧ t.SP = s.SP ∧ t.STACK = s.STACK ∧ t.MEM = s.MEM ∧ t.FB = s.FB

/-! ### Runs -/

/-- Run instructions one after the other, without the fetch. -/
def execAll : List Instr → State → Result
  | [], s => .next s
  | i :: is, s =>
    match exec i s with
    | .next t => execAll is t
    | .fault f => .fault f
    | .refused r => .refused r

/-- The outcome with a change made to the next state, if there is one. -/
def mapNext (f : State → State) : Result → Result
  | .next t => .next (f t)
  | .fault r => .fault r
  | .refused r => .refused r

/-! ### States that look alike -/

/-- Two states that differ at most in dead stack entries, those at or above `SP` (10_state.md R28). -/
structure SameButDeadStack (s t : State) : Prop where
  rest_equal : t = { s with STACK := t.STACK }
  live_entries_equal : ∀ (j : Nat) (h : j < Config.stackDepth), j < s.SP.val → t.STACK[j] = s.STACK[j]

/-- Two outcomes that look alike: both a next state with `SameButDeadStack`, or the same stop. -/
def OutcomesAlike : Result → Result → Prop
  | .next s, .next t => SameButDeadStack s t
  | .fault f, .fault g => f = g
  | .refused f, .refused g => f = g
  | _, _ => False

end Sys2Proof.Machine
end

