-- ==== Sys2Proof/Certificates/Slice0/Obligations.lean ====
section
/-! DEFINITION. The statements for the provers: one `def Obligations.<Name> : Prop` each, listed in OBLIGATIONS.json.
A clause that rests on a choice of the spec's own (a "[decision]" or "[derived]" mark) or on a log entry names it in
the docstring. -/

open Sys2Proof Sys2Proof.Machine

/-! ### Encoding (30_encoding.md) -/

/-- Decoding the word of a well-formed instruction gives the instruction back, from the word, from its bytes with
anything behind them, and through the host's window. -/
def Obligations.DecodeOfEncodeGivesTheInstructionBack : Prop :=
  ∀ i : Instr, i.WellFormed →
    decodeWord (encode i) = .ok i ∧
    (∀ rest : List Byte, decode (encodeBytes i ++ rest) = .ok (i, rest)) ∧
    decodeTableWord 16 (encode i).toNat = some i

/-- Every word that decodes is the word of what it decodes to, and that is a well-formed term: no two words decode to
one instruction and no bit is dropped. It rests on the matching of every fixed digit (R85, the spec's decision D6,
notes/assumptions/10.md). -/
def Obligations.EncodeOfDecodeGivesTheWordBack : Prop :=
  ∀ (w : Word) (i : Instr), decodeWord w = .ok i → i.WellFormed ∧ encode i = w

/-- The decoder selects the row of the opcode table with `(opcode & mask) = match` (R84), there are 34 rows, and no
word matches two. Matching every fixed digit is the spec's decision D6 (notes/assumptions/10.md). -/
def Obligations.DecoderSelectsTheMatchingRow : Prop :=
  opcodeTable.length = 34 ∧
  (∀ (w : Word) (i : Instr), decodeWord w = .ok i → i.row ∈ opcodeTable ∧ i.row.Matches w) ∧
  (∀ (w : Word) (r : OpRow), r ∈ opcodeTable → r.Matches w → ∃ i, decodeWord w = .ok i ∧ i.row = r) ∧
  (∀ (w : Word) (r q : OpRow), r ∈ opcodeTable → q ∈ opcodeTable → r.Matches w → q.Matches w → r = q)

/-- The rejected words are exactly those the table of R87 lists (the spec's decision D6, notes/assumptions/10.md), and
a word is rejected only by the name `unmatched`. -/
def Obligations.RejectedWordsAreTheListedGroups : Prop :=
  ∀ w : Word,
    (decodeWord w = .error (.unmatched w) ↔
      (fieldN1 w = 0x0 ∧ w ≠ 0x00E0 ∧ w ≠ 0x00EE) ∨
      (fieldN1 w = 0x5 ∧ fieldN4 w ≠ 0) ∨
      (fieldN1 w = 0x8 ∧ fieldN4 w ∈ [0x8, 0x9, 0xA, 0xB, 0xC, 0xD, 0xF]) ∨
      (fieldN1 w = 0x9 ∧ fieldN4 w ≠ 0) ∨
      (fieldN1 w = 0xE ∧ fieldKK w ∉ [0x9E, 0xA1]) ∨
      (fieldN1 w = 0xF ∧ fieldKK w ∉ [0x07, 0x0A, 0x15, 0x18, 0x1E, 0x29, 0x33, 0x55, 0x65])) ∧
    (∀ r : Reject, decodeWord w = .error r → r = .unmatched w)

/-- Words written out bit by bit from the encodings of R84, at least one of each family, decode to their instructions,
and one word, 5AB1, is rejected. The rejection is the spec's decision D6 (R85, notes/assumptions/10.md): the word
differs from 5xy0 in its fixed last digit. -/
def Obligations.WrittenOutWordsDecode : Prop :=
  decodeWord 0b0000000011100000 = .ok .cls ∧
  decodeWord 0b0010001000001010 = .ok (.call 0x20A) ∧
  decodeWord 0b0111000001100100 = .ok (.addImm 0 100) ∧
  decodeWord 0b1000000100100101 = .ok (.subReg 1 2) ∧
  decodeWord 0b1010001000101000 = .ok (.ldI 0x228) ∧
  decodeWord 0b1101000000010010 = .ok (.drw 0 1 2) ∧
  decodeWord 0b1110000110011110 = .ok (.skp 1) ∧
  decodeWord 0b1111001101010101 = .ok (.store 3) ∧
  decodeWord 0b0101101010110001 = .error (.unmatched 0x5AB1)

/-! ### The instruction cycle (40_cycle.md) and the schedule (45_keypad_timers.md R223) -/

/-- When the two bytes at `pc` decode to `i`, a step is `exec i`, after which the cycle is counted and the next sample
of the inputs is taken; a fault of `i` is the step's fault. The sampling is the model's (notes/assumptions/1.md, 2.md). -/
def Obligations.StepRunsTheDecodedInstruction : Prop :=
  ∀ (s : State) (i : Instr), s.FAULT = none → s.pc.toNat ≤ 4094 →
    decodeWord (s.byteAt s.pc.toNat ++ s.byteAt (s.pc.toNat + 1)) = .ok i →
    (∀ t, exec i s = .next t → step s = .next (t.countCycle Config.cyclesPerTick).sampleInputs) ∧
    (∀ f, exec i s = .fault f → step s = .fault f)

/-- An instruction placed at `pc` is the one the very next step runs, and placing it writes its two cells and nothing
else (notes/assumptions/15.md). -/
def Obligations.PlacedInstructionIsTheOneThatRuns : Prop :=
  ∀ (s : State) (i : Instr), i.WellFormed → s.MEM.wf → s.FAULT = none → s.pc.toNat ≤ 4094 →
    step (s.withFetchWord 16 (encode i).toNat)
      = finishCycle Config.cyclesPerTick (exec i (s.withFetchWord 16 (encode i).toNat)) ∧
    s.withFetchWord 16 (encode i).toNat = { s with MEM := (s.withFetchWord 16 (encode i).toNat).MEM } ∧
    KeepsMemoryOutside s.pc.toNat 2 s (s.withFetchWord 16 (encode i).toNat)

/-- R106: a word that matches no row changes `pc` by 2 and nothing else; it counts as a cycle of the batch, for every
batch size. -/
def Obligations.UnmatchedWordIsANoOp : Prop :=
  ∀ (period : Nat) (s : State), s.FAULT = none → s.pc.toNat ≤ 4094 →
    (∀ r ∈ opcodeTable, ¬ r.Matches s.wordAtPc) →
    ∃ t, cycle period s = .next t ∧ t.pc = s.pc + 2 ∧ SameProgramState s t ∧ t.FAULT = none ∧
      CycleCounted period s t

/-- R52, R59: the fetch reads the byte at `pc` as the high byte and the byte at `pc + 1` as the low byte when
`pc ≤ 4094`, and is the fatal error OutOfBounds when `pc ≥ 4095`: at 4095 the second byte cannot be read, from 4096 on
the first. Nothing but the fault latch changes then. -/
def Obligations.FetchIsBigEndianAndBounded : Prop :=
  ∀ s : State,
    (s.pc.toNat ≤ 4094 → s.fetch = .ok (s.byteAt s.pc.toNat ++ s.byteAt (s.pc.toNat + 1))) ∧
    (4095 ≤ s.pc.toNat → (∃ a, s.fetch = .error a) ∧
      (s.FAULT = none → ∀ period, (∃ a, cycle period s = .fault (.outOfBounds s.pc a)) ∧
        ∃ r, afterStep period s = { s with FAULT := some r })) ∧
    (s.pc.toNat = 4095 → memRead s.MEM s.pc.toNat 1 = .ok [s.byteAt 4095] ∧
      ∃ a, memRead s.MEM (s.pc.toNat + 1) 1 = .error a) ∧
    (4096 ≤ s.pc.toNat → ∃ a, memRead s.MEM s.pc.toNat 1 = .error a)

/-- R107: a core whose latch is set has no next state, and a `STEP` event leaves every field as it was, the timers
too. -/
def Obligations.FaultedCoreTakesNoStep : Prop :=
  ∀ (period : Nat) (s : State) (r : FaultRecord), s.FAULT = some r →
    (∀ t, cycle period s ≠ .next t) ∧ afterStep period s = s

/-- A fatal error sets the latch to its kind and the `pc` of the cycle that raised it, and the latch keeps that record
however many `STEP` events follow (R33, R235; the record's layout is the spec's decision D8,
notes/assumptions/12.md). Nothing is said of the rest of the state after a fault. -/
def Obligations.FatalErrorStaysLatched : Prop :=
  ∀ (period k : Nat) (s : State) (f : Fault), s.FAULT = none → cycle period s = .fault f →
    ((afterStep period)^[k + 1] s).FAULT = some f.record ∧ f.record.atPc = some s.pc ∧
    f.record.kind ∈ [FaultKind.outOfBounds, .stackOverflow, .stackUnderflow]

/-- Which instruction stops, where, and with which error (the table of R230): in every other state it completes. The
bound of a block that ends at cell 4095 is the spec's decision D7 (notes/assumptions/11.md). -/
def Obligations.InstructionsStopExactlyWhereListed : Prop :=
  ∀ (i : Instr) (s : State),
    (¬ FaultCondition s i → ∃ t, exec i s = .next t) ∧
    (FaultCondition s i → ∃ f, exec i s = .fault f ∧ f.record = ⟨faultKind i, some s.pc⟩)

/-- From every state that has not failed, a step gives a next state or one of the three fatal errors a cycle can raise,
with the `pc` of this instruction; no step is refused. -/
def Obligations.StepIsNeverStuck : Prop :=
  ∀ s : State, s.FAULT = none →
    (∃ t, step s = .next t) ∨
    (∃ a, step s = .fault (.outOfBounds s.pc a)) ∨
    step s = .fault (.stackOverflow s.pc) ∨
    step s = .fault (.stackUnderflow s.pc)

/-- R222: a tick takes both timers down by one, floor zero, and changes nothing else. It happens only between two
`STEP`s: while an instruction executes a timer changes only by being written. It never happens in a faulted core. -/
def Obligations.TickCountsBothTimersDown : Prop :=
  ∀ s : State,
    s.tick.DT.toNat = s.DT.toNat - 1 ∧ s.tick.ST.toNat = s.ST.toNat - 1 ∧
    s.tick = { s with DT := s.tick.DT, ST := s.tick.ST } ∧
    (∀ i t, exec i s = .next t →
      (t.DT = s.DT ∨ ∃ x, i = .ldDTVx x ∧ t.DT = s.reg x) ∧
      (t.ST = s.ST ∨ ∃ x, i = .ldSTVx x ∧ t.ST = s.reg x)) ∧
    (∀ period r, s.FAULT = some r → (afterStep period s).DT = s.DT ∧ (afterStep period s).ST = s.ST)

/-- The reference schedule (R223, the spec's decision D13, notes/assumptions/6.md) at every batch size: the executed
instruction's state `u`, then the count, then a tick exactly when the batch is full. -/
def Obligations.TickFollowsAFullBatch : Prop :=
  ∀ (period : Nat) (s u : State), s.FAULT = none → s.pc.toNat ≤ 4094 → runWord s.wordAtPc s = .next u →
    ∃ t, cycle period s = .next t ∧ SameProgramState u t ∧ t.pc = u.pc ∧ t.FAULT = none ∧
      u.CYC = s.CYC ∧ CycleCounted period u t

/-- The batch counter counts cycles modulo the batch size over a run of any length (R223, R108; the default batch
size, notes/assumptions/6.md). -/
def Obligations.BatchCounterCountsCycles : Prop :=
  ∀ (k : Nat) (s t : State), s.CYC < Config.cyclesPerTick → core.run k s = .next t →
    t.CYC = (s.CYC + k) % Config.cyclesPerTick

/-- A jump to itself is a rest state (R281, derived there; the spec's decision D14): after any number of steps every
register, `I`, the stack, memory and the framebuffer are as they were, and only the timers and the batch counter have
moved. That the timers have moved by one for each full batch is the reference schedule at the default batch size (R223,
the spec's decision D13, notes/assumptions/6.md). -/
def Obligations.SelfJumpIsARestState : Prop :=
  ∀ (k : Nat) (s : State) (nnn : Addr12), s.FAULT = none → s.CYC < Config.cyclesPerTick →
    s.pc.toNat ≤ 4094 → nnn.toNat = s.pc.toNat → s.wordAtPc = wordNNN 0x1 nnn →
    ∃ t, core.run k s = .next t ∧ t.pc = s.pc ∧ SameProgramState s t ∧
      t.DT.toNat = s.DT.toNat - (s.CYC + k) / Config.cyclesPerTick ∧
      t.ST.toNat = s.ST.toNat - (s.CYC + k) / Config.cyclesPerTick

/-! ### Invariants, reset and load -/

/-- The state after reset meets the invariant, with every font and at every batch size. The zeros of reset are the
spec's decision D2 (notes/assumptions/3.md). -/
def Obligations.ResetMeetsTheInvariant : Prop :=
  (∀ (font : Config.Font) (period : Nat), 0 < period → (State.resetWith font).Inv period) ∧
  State.reset.Inv Config.cyclesPerTick

/-- From EVERY state that meets the invariant, a step gives a state that meets it, at every batch size: canonical
memory, `I ≤ 4095`, `pc ≤ 4098`, return addresses at most 4096, the batch counter below the batch size, no fault. -/
def Obligations.StepKeepsTheInvariant : Prop :=
  (∀ (period : Nat) (s t : State), 0 < period → s.Inv period → cycle period s = .next t → t.Inv period) ∧
  (∀ s t : State, s.Inv Config.cyclesPerTick → step s = .next t → t.Inv Config.cyclesPerTick)

/-- What reset leaves (R36), for every value of the parameter `FONT` (R7): cells 0 to 79 hold the given font. The
source states `pc` and the place and length of the font; the zeros, the empty latch and the batch counter are the
spec's decision D2 (notes/assumptions/3.md). `State.reset` is the reset with the default font (R37,
notes/assumptions/5.md), and its memory lists no cell, which is the model's representation. -/
def Obligations.ResetLeavesTheListedValues : Prop :=
  (∀ font : Config.Font,
    (State.resetWith font).pc = 0x200 ∧ (State.resetWith font).SP.val = 0 ∧
    (∀ (a : Nat) (h : a < 80), (State.resetWith font).byteAt a = font[a]) ∧
    (∀ a, 80 ≤ a → (State.resetWith font).byteAt a = 0) ∧
    (∀ r, (State.resetWith font).reg r = 0) ∧ (State.resetWith font).I = 0 ∧
    (State.resetWith font).DT = 0 ∧ (State.resetWith font).ST = 0 ∧
    (∀ r c, (State.resetWith font).pixel r c = false) ∧
    (State.resetWith font).FAULT = none ∧ (State.resetWith font).CYC = 0) ∧
  State.resetWith Config.font = State.reset ∧ State.reset.MEM = []

/-- R234: an image longer than 3584 bytes fails with ImageTooLarge, and a core that latched that error runs no cycle;
one of at most 3584 bytes is placed verbatim from 0x200; an empty one changes nothing. -/
def Obligations.LoadPlacesTheImageOrFails : Prop :=
  ∀ (s : State) (image : List Byte), s.MEM.wf →
    (3584 < image.length → s.loadImage image = .fault (.imageTooLarge image.length) ∧
      ∀ period t, cycle period (s.latch (.imageTooLarge image.length)) ≠ .next t) ∧
    (image.length ≤ 3584 → ∃ t, s.loadImage image = .next t ∧ t = { s with MEM := t.MEM } ∧ t.MEM.wf ∧
      (∀ (k : Nat) (h : k < image.length), t.byteAt (0x200 + k) = image[k]) ∧
      KeepsMemoryOutside 0x200 image.length s t) ∧
    s.loadImage [] = .next s

/-! ### Control transfer (41_control_flow.md) -/

/-- R122: `00EE` pops the top entry into `pc` as it is, with no advance, or is the fatal error StackUnderflow, which
changes nothing but the fault latch. Only the whole word `0x00EE` returns: another word of group 0 is `00E0` or
unmatched (R85, the spec's decision D6, notes/assumptions/10.md). A popped value is at most 4096 in every state of a
run. -/
def Obligations.ReturnPopsThePc : Prop :=
  (∀ w : Word, (decodeWord w = .ok .ret ↔ w = 0x00EE) ∧
    (fieldN1 w = 0x0 → w ≠ 0x00E0 → w ≠ 0x00EE → decodeWord w = .error (.unmatched w))) ∧
  ∀ s : State,
    (s.SP.val = 0 → exec .ret s = .fault (.stackUnderflow s.pc) ∧
      (s.FAULT = none → s.pc.toNat ≤ 4094 → s.wordAtPc = 0x00EE →
        ∀ period, ∃ r, afterStep period s = { s with FAULT := some r })) ∧
    (∀ (j : Nat) (h : j < 16), s.SP.val = j + 1 →
      ∃ t, exec .ret s = .next t ∧ t.pc = s.STACK[j] ∧ t.SP.val = j ∧ t.V = s.V ∧
        (∀ period, s.Inv period → t.pc.toNat ≤ 4096))

/-- R123: `1nnn` jumps to `nnn`, any address, with no advance; a jump to itself changes nothing; a jump to 0xFFF is
accepted and the next fetch fails. -/
def Obligations.JumpGoesToTheAddress : Prop :=
  ∀ (s : State) (nnn : Addr12),
    decodeWord (wordNNN 0x1 nnn) = .ok (.jp nnn) ∧
    ∃ t, exec (.jp nnn) s = .next t ∧ t.pc.toNat = nnn.toNat ∧ t.V = s.V ∧
      (nnn.toNat = s.pc.toNat → t = s) ∧
      (nnn = 0xFFF → s.FAULT = none → ∀ period, ∃ a, cycle period t = .fault (.outOfBounds t.pc a))

/-- R124: `2nnn` pushes the address after the call and jumps with no advance; with 16 entries in use it is the fatal
error StackOverflow, which changes nothing but the fault latch. -/
def Obligations.CallPushesTheReturnAddress : Prop :=
  ∀ (s : State) (nnn : Addr12),
    decodeWord (wordNNN 0x2 nnn) = .ok (.call nnn) ∧
    (∀ h : s.SP.val < 16, ∃ t, exec (.call nnn) s = .next t ∧
      t.STACK[s.SP.val] = s.pc + 2 ∧ t.SP.val = s.SP.val + 1 ∧ t.pc.toNat = nnn.toNat ∧ t.V = s.V ∧
      (∀ (j : Nat) (hj : j < 16), j ≠ s.SP.val → t.STACK[j] = s.STACK[j])) ∧
    (s.SP.val = 16 → exec (.call nnn) s = .fault (.stackOverflow s.pc) ∧
      (s.FAULT = none → s.pc.toNat ≤ 4094 → s.wordAtPc = wordNNN 0x2 nnn →
        ∀ period, ∃ r, afterStep period s = { s with FAULT := some r }))

/-- Last in, first out (R120, R121 and the round trip of 95_test_vectors.md S4): after any calls that fit, `k` returns
come back to the address after the `k`-th last call; one call more than the stack holds is the fatal error. How `SP` is
held is the spec's decision D10 (notes/assumptions/14.md). -/
def Obligations.NestedCallsReturnInReverseOrder : Prop :=
  ∀ (s : State) (targets : List Addr12),
    (s.SP.val + targets.length ≤ 16 →
      ∃ t, execAll (targets.map .call) s = .next t ∧ t.SP.val = s.SP.val + targets.length ∧
        ∀ k, 1 ≤ k → k ≤ targets.length →
          ∃ u, execAll (List.replicate k .ret) t = .next u ∧ u.SP.val = s.SP.val + targets.length - k ∧
            u.pc = (if k = targets.length then s.pc
                    else (targets.getD (targets.length - k - 1) 0).setWidth 16) + 2) ∧
    (16 < s.SP.val + targets.length →
      ∃ pc, execAll (targets.map .call) s = .fault (.stackOverflow pc))

/-- R125: `Bnnn` jumps to `(nnn + V[0]) mod 4096` with no advance. -/
def Obligations.IndexedJumpAddsV0 : Prop :=
  ∀ (s : State) (nnn : Addr12),
    decodeWord (wordNNN 0xB nnn) = .ok (.jpV0 nnn) ∧
    ∃ t, exec (.jpV0 nnn) s = .next t ∧ t.pc.toNat = (nnn.toNat + (s.reg 0).toNat) % 4096 ∧ t.V = s.V

/-- R126, R127: `3xkk` skips when `V[x] = kk`, `4xkk` when `V[x] ≠ kk`; a skip is `pc + 4`, otherwise `pc + 2`. -/
def Obligations.SkipComparesWithTheImmediate : Prop :=
  ∀ (s : State) (x : Reg) (kk : Byte),
    decodeWord (wordXKK 0x3 x kk) = .ok (.seImm x kk) ∧ decodeWord (wordXKK 0x4 x kk) = .ok (.sneImm x kk) ∧
    (∃ t, exec (.seImm x kk) s = .next t ∧ t.V = s.V ∧
      t.pc = if (s.reg x).toNat = kk.toNat then s.pc + 4 else s.pc + 2) ∧
    (∃ t, exec (.sneImm x kk) s = .next t ∧ t.V = s.V ∧
      t.pc = if (s.reg x).toNat = kk.toNat then s.pc + 2 else s.pc + 4)

/-- R128, R129: `5xy0` skips when `V[x] = V[y]`, `9xy0` when `V[x] ≠ V[y]`; with another last digit the word is
unmatched (R85, the spec's decision D6, notes/assumptions/10.md). -/
def Obligations.SkipComparesTwoRegisters : Prop :=
  ∀ (s : State) (x y : Reg),
    decodeWord (wordXYN 0x5 x y 0) = .ok (.seReg x y) ∧ decodeWord (wordXYN 0x9 x y 0) = .ok (.sneReg x y) ∧
    (∀ n : Nibble, n ≠ 0 → decodeWord (wordXYN 0x5 x y n) = .error (.unmatched (wordXYN 0x5 x y n)) ∧
      decodeWord (wordXYN 0x9 x y n) = .error (.unmatched (wordXYN 0x9 x y n))) ∧
    (∃ t, exec (.seReg x y) s = .next t ∧ t.V = s.V ∧
      t.pc = if (s.reg x).toNat = (s.reg y).toNat then s.pc + 4 else s.pc + 2) ∧
    (∃ t, exec (.sneReg x y) s = .next t ∧ t.V = s.V ∧
      t.pc = if (s.reg x).toNat = (s.reg y).toNat then s.pc + 2 else s.pc + 4)

/-! ### Register and ALU instructions (42_alu.md) -/

/-- R140, R141: `6xkk` loads the immediate; `7xkk` adds it modulo 256 and drops the carry; `VF` changes only as the
destination. -/
def Obligations.ImmediateLoadAndAdd : Prop :=
  ∀ (s : State) (x : Reg) (kk : Byte),
    decodeWord (wordXKK 0x6 x kk) = .ok (.ldImm x kk) ∧ decodeWord (wordXKK 0x7 x kk) = .ok (.addImm x kk) ∧
    (∃ t, exec (.ldImm x kk) s = .next t ∧ t.reg x = kk ∧ t.pc = s.pc + 2 ∧ (x ≠ VF → t.reg VF = s.reg VF)) ∧
    (∃ t, exec (.addImm x kk) s = .next t ∧ (t.reg x).toNat = ((s.reg x).toNat + kk.toNat) % 256 ∧
      t.pc = s.pc + 2 ∧ (x ≠ VF → t.reg VF = s.reg VF))

/-- R142 to R145: copy, OR, AND, XOR of two registers; `VF` changes only as the destination. -/
def Obligations.RegisterCopyAndBitwise : Prop :=
  ∀ (s : State) (x y : Reg),
    decodeWord (wordXYN 0x8 x y 0x0) = .ok (.ldReg x y) ∧ decodeWord (wordXYN 0x8 x y 0x1) = .ok (.orReg x y) ∧
    decodeWord (wordXYN 0x8 x y 0x2) = .ok (.andReg x y) ∧ decodeWord (wordXYN 0x8 x y 0x3) = .ok (.xorReg x y) ∧
    (∃ t, exec (.ldReg x y) s = .next t ∧ t.reg x = s.reg y ∧ t.pc = s.pc + 2 ∧
      (x ≠ VF → t.reg VF = s.reg VF)) ∧
    (∃ t, exec (.orReg x y) s = .next t ∧
      (∀ j, (t.reg x).getLsbD j = ((s.reg x).getLsbD j || (s.reg y).getLsbD j)) ∧ t.pc = s.pc + 2 ∧
      (x ≠ VF → t.reg VF = s.reg VF)) ∧
    (∃ t, exec (.andReg x y) s = .next t ∧
      (∀ j, (t.reg x).getLsbD j = ((s.reg x).getLsbD j && (s.reg y).getLsbD j)) ∧ t.pc = s.pc + 2 ∧
      (x ≠ VF → t.reg VF = s.reg VF)) ∧
    (∃ t, exec (.xorReg x y) s = .next t ∧
      (∀ j, (t.reg x).getLsbD j = ((s.reg x).getLsbD j ^^ (s.reg y).getLsbD j)) ∧ t.pc = s.pc + 2 ∧
      (x ≠ VF → t.reg VF = s.reg VF))

/-- `8xy4` (R146): the sum modulo 256, and the carry in `VF` unless `VF` is the destination, which the result then
overwrites (statement order, the spec's decision D4, notes/assumptions/8.md). -/
def Obligations.AddSetsTheCarry : Prop :=
  ∀ (s : State) (x y : Reg),
    ∃ t, exec (.addReg x y) s = .next t ∧ t.pc = s.pc + 2 ∧
      (t.reg x).toNat = ((s.reg x).toNat + (s.reg y).toNat) % 256 ∧
      (x ≠ VF → (t.reg VF).toNat = if 255 < (s.reg x).toNat + (s.reg y).toNat then 1 else 0)

/-- `8xy5`, `8xy7` (R147, R149): away from `VF` the difference modulo 256 and the no-borrow flag; where `VF` is an
operand the difference is taken with the flag `f` in its place, and where it is the destination the result overwrites
the flag (statement order, the spec's decision D4, notes/assumptions/8.md). -/
def Obligations.SubtractSetsNoBorrow : Prop :=
  ∀ (s : State) (x y : Reg),
    (∃ t f, exec (.subReg x y) s = .next t ∧ t.pc = s.pc + 2 ∧
      f = (if (s.reg y).toNat ≤ (s.reg x).toNat then 1 else 0) ∧
      (x ≠ VF → (t.reg VF).toNat = f) ∧
      ((t.reg x).toNat : Int) =
        ((if x = VF then (f : Int) else (s.reg x).toNat) - (if y = VF then (f : Int) else (s.reg y).toNat)) % 256) ∧
    (∃ t f, exec (.subnReg x y) s = .next t ∧ t.pc = s.pc + 2 ∧
      f = (if (s.reg x).toNat ≤ (s.reg y).toNat then 1 else 0) ∧
      (x ≠ VF → (t.reg VF).toNat = f) ∧
      ((t.reg x).toNat : Int) =
        ((if y = VF then (f : Int) else (s.reg y).toNat) - (if x = VF then (f : Int) else (s.reg x).toNat)) % 256)

/-- `8xy6`, `8xyE` (R148, R150): a shift by one of `V[x]`, the bit shifted out in `VF`, whatever `y`; with `x = 15` the
shift is done on the flag (statement order, the spec's decision D4, notes/assumptions/8.md). -/
def Obligations.ShiftPutsTheLostBitInVF : Prop :=
  ∀ (s : State) (x y : Reg),
    (∃ t, exec (.shr x y) s = .next t ∧ t.pc = s.pc + 2 ∧
      (x ≠ VF → (t.reg x).toNat = (s.reg x).toNat / 2 ∧ (t.reg VF).toNat = (s.reg x).toNat % 2) ∧
      (x = VF → t.reg VF = 0)) ∧
    (∃ t, exec (.shl x y) s = .next t ∧ t.pc = s.pc + 2 ∧
      (x ≠ VF → (t.reg x).toNat = (s.reg x).toNat * 2 % 256 ∧ (t.reg VF).toNat = (s.reg x).toNat / 128) ∧
      (x = VF → (t.reg VF).toNat = if 128 ≤ (s.reg VF).toNat then 2 else 0))

/-- R151: `Cxkk` puts the draw, masked with `kk`, in `V[x]`, for every draw; every value below the mask is possible. -/
def Obligations.RandomDrawIsMasked : Prop :=
  ∀ (s : State) (x : Reg) (kk : Byte),
    decodeWord (wordXKK 0xC x kk) = .ok (.rnd x kk) ∧
    (∃ t, exec (.rnd x kk) s = .next t ∧ t.reg x = (s.RND &&& kk) ∧ t.reg x &&& ~~~kk = 0 ∧ t.pc = s.pc + 2 ∧
      (x ≠ VF → t.reg VF = s.reg VF)) ∧
    (∀ r : Byte, r &&& ~~~kk = 0 → ∃ draw t, exec (.rnd x kk) { s with RND := draw } = .next t ∧ t.reg x = r)

/-! ### Index register and memory (43_index_memory.md) -/

/-- R170, R171, R172: the three writes of `I`; `VF` is not written, even when the sum of `Fx1E` passes 4095. -/
def Obligations.IndexRegisterIsWritten : Prop :=
  (∀ (s : State) (nnn : Addr12),
    decodeWord (wordNNN 0xA nnn) = .ok (.ldI nnn) ∧
    ∃ t, exec (.ldI nnn) s = .next t ∧ t.I.toNat = nnn.toNat ∧ t.pc = s.pc + 2 ∧ t.V = s.V) ∧
  (∀ (s : State) (x : Reg),
    decodeWord (wordXKK 0xF x 0x1E) = .ok (.addI x) ∧ decodeWord (wordXKK 0xF x 0x29) = .ok (.ldF x) ∧
    (∃ t, exec (.addI x) s = .next t ∧ t.I.toNat = (s.I.toNat + (s.reg x).toNat) % 4096 ∧ t.pc = s.pc + 2 ∧
      t.V = s.V) ∧
    (∃ t, exec (.ldF x) s = .next t ∧ t.I.toNat = (s.reg x).toNat * 5 ∧ t.pc = s.pc + 2 ∧ t.V = s.V ∧
      t.MEM = s.MEM))

/-- `Fx33` (R173): hundreds, tens and ones of `V[x]` at `I`, `I + 1`, `I + 2`, or OutOfBounds when they do not fit.
That a block ending at cell 4095 fits is the spec's decision D7 (notes/assumptions/11.md). -/
def Obligations.DecimalDigitsAreStored : Prop :=
  ∀ (s : State) (x : Reg), s.MEM.wf →
    (s.I.toNat + 3 ≤ 4096 → ∃ t, exec (.ldB x) s = .next t ∧
      (t.byteAt s.I.toNat).toNat = (s.reg x).toNat / 100 ∧
      (t.byteAt (s.I.toNat + 1)).toNat = (s.reg x).toNat / 10 % 10 ∧
      (t.byteAt (s.I.toNat + 2)).toNat = (s.reg x).toNat % 10 ∧
      t.I = s.I ∧ t.V = s.V ∧ t.pc = s.pc + 2 ∧ t.MEM.wf) ∧
    (4096 < s.I.toNat + 3 → ∃ a, exec (.ldB x) s = .fault (.outOfBounds s.pc a))

/-- `Fx55` (R174): `MEM[I + r] = V[r]` for `r = 0..x`, or OutOfBounds when they do not fit. That a block ending at cell
4095 fits is the spec's decision D7 (notes/assumptions/11.md). -/
def Obligations.RegisterBlockIsStored : Prop :=
  ∀ (s : State) (x : Reg), s.MEM.wf →
    (s.I.toNat + x.val + 1 ≤ 4096 → ∃ t, exec (.store x) s = .next t ∧
      (∀ r : Reg, r ≤ x → t.byteAt (s.I.toNat + r.val) = s.reg r) ∧
      t.I = s.I ∧ t.V = s.V ∧ t.pc = s.pc + 2 ∧ t.MEM.wf) ∧
    (4096 < s.I.toNat + x.val + 1 → ∃ a, exec (.store x) s = .fault (.outOfBounds s.pc a))

/-- `Fx65` (R175): `V[r] = MEM[I + r]` for `r = 0..x`, registers above `V[x]` unchanged, or OutOfBounds when the block
passes the end of memory. That a block ending at cell 4095 is in memory is the spec's decision D7
(notes/assumptions/11.md). -/
def Obligations.RegisterBlockIsLoaded : Prop :=
  ∀ (s : State) (x : Reg),
    (s.I.toNat + x.val + 1 ≤ 4096 → ∃ t, exec (.load x) s = .next t ∧
      (∀ r : Reg, r ≤ x → t.reg r = s.byteAt (s.I.toNat + r.val)) ∧
      (∀ r : Reg, x < r → t.reg r = s.reg r) ∧
      t.I = s.I ∧ t.MEM = s.MEM ∧ t.pc = s.pc + 2) ∧
    (4096 < s.I.toNat + x.val + 1 → ∃ a, exec (.load x) s = .fault (.outOfBounds s.pc a))

/-- What `Fx55` stored, `Fx65` loads back, whatever the registers hold in between (R174, R175, R60). -/
def Obligations.StoredRegistersLoadBack : Prop :=
  ∀ (s t : State) (x : Reg) (other : Vector Byte 16), s.MEM.wf → exec (.store x) s = .next t →
    ∃ u, exec (.load x) { t with V := other } = .next u ∧ ∀ r : Reg, r ≤ x → u.reg r = s.reg r

/-- A store is seen by the very next fetch (R67): when `pc` after `Fx55` points into the stored block, the word fetched
is spelled by the registers that were stored. -/
def Obligations.StoredBytesAreFetchedNext : Prop :=
  ∀ (s t : State) (x p q : Reg), s.MEM.wf → exec (.store x) s = .next t →
    t.pc.toNat = s.I.toNat + p.val → q.val = p.val + 1 → q ≤ x →
    t.fetch = .ok (s.reg p ++ s.reg q)

/-- Memory is extensional: two canonical memories that read alike at every address are equal. The representation is the
model's. -/
def Obligations.CanonicalMemoriesThatReadAlikeAreEqual : Prop :=
  ∀ m n : Memory, m.wf → n.wf → (∀ a, m.read a = n.read a) → m = n

/-! ### Display (44_display.md) -/

/-- R190: `00E0` clears every pixel and does not write `VF`; only the whole word `0x00E0` clears: another word of group
0 is `00EE` or unmatched (R85, the spec's decision D6, notes/assumptions/10.md). -/
def Obligations.ClearScreenClearsEveryPixel : Prop :=
  (∀ w : Word, (decodeWord w = .ok .cls ↔ w = 0x00E0) ∧
    (fieldN1 w = 0x0 → w ≠ 0x00E0 → w ≠ 0x00EE → decodeWord w = .error (.unmatched w))) ∧
  ∀ s : State, ∃ t, exec .cls s = .next t ∧ (∀ r c, t.pixel r c = false) ∧ t.V = s.V ∧ t.pc = s.pc + 2

/-- `Dxyn` is the set form of R193: every pixel the sprite covers is inverted, every other is unchanged, and `VF` is 1
exactly when a covered pixel was lit before, else 0. A coordinate register 15 reads as 0 (the spec's decision D5,
notes/assumptions/9.md); a sprite ending at cell 4095 is drawn (D7, notes/assumptions/11.md). -/
def Obligations.DrawInvertsTheCoveredPixels : Prop :=
  ∀ (s : State) (x y : Reg) (n : Nat), n < 16 →
    decodeWord (wordXYN 0xD x y (BitVec.ofNat 4 n)) = .ok (.drw x y n) ∧
    (n = 0 ∨ s.I.toNat + n ≤ 4096 → ∃ t, exec (.drw x y n) s = .next t ∧ t.pc = s.pc + 2 ∧
      (∀ r c, SpriteCovers s n (drawCoordinate s x) (drawCoordinate s y) r c → t.pixel r c = !s.pixel r c) ∧
      (∀ r c, ¬ SpriteCovers s n (drawCoordinate s x) (drawCoordinate s y) r c → t.pixel r c = s.pixel r c) ∧
      (t.reg VF = 1 ∨ t.reg VF = 0) ∧
      (t.reg VF = 1 ↔
        ∃ r c, SpriteCovers s n (drawCoordinate s x) (drawCoordinate s y) r c ∧ s.pixel r c = true) ∧
      (∀ r, r ≠ VF → t.reg r = s.reg r) ∧ t.I = s.I ∧ t.MEM = s.MEM) ∧
    (1 ≤ n → 4096 < s.I.toNat + n → ∃ a, exec (.drw x y n) s = .fault (.outOfBounds s.pc a))

/-- Drawing the same sprite at the same place twice restores the framebuffer exactly, and from a dark screen the second
draw reports a collision exactly when the sprite has a lit bit (R193, derived there; 95_test_vectors.md S6). That a
sprite ending at cell 4095 is drawn is the spec's decision D7 (notes/assumptions/11.md), that a coordinate register 15
reads as 0 in both draws its decision D5 (notes/assumptions/9.md). -/
def Obligations.DrawingTwiceRestoresTheScreen : Prop :=
  ∀ (s : State) (x y : Reg) (n : Nat), n < 16 → (n = 0 ∨ s.I.toNat + n ≤ 4096) →
    ∃ t u, exec (.drw x y n) s = .next t ∧ exec (.drw x y n) t = .next u ∧
      (∀ r c, u.pixel r c = s.pixel r c) ∧
      ((∀ r c, s.pixel r c = false) →
        (u.reg VF = 1 ↔ ∃ k, k < n ∧ s.byteAt (s.I.toNat + k) ≠ 0))

/-! ### Keypad and timers (45_keypad_timers.md) -/

/-- R210, R211: `Ex9E` skips when the key the low four bits of `V[x]` select is held, `ExA1` when it is not. -/
def Obligations.SkipTestsTheSelectedKey : Prop :=
  ∀ (s : State) (x : Reg),
    decodeWord (wordXKK 0xE x 0x9E) = .ok (.skp x) ∧ decodeWord (wordXKK 0xE x 0xA1) = .ok (.sknp x) ∧
    (∃ t, exec (.skp x) s = .next t ∧ t.V = s.V ∧
      t.pc = if s.KEYS.getLsbD ((s.reg x).toNat % 16) = true then s.pc + 4 else s.pc + 2) ∧
    (∃ t, exec (.sknp x) s = .next t ∧ t.V = s.V ∧
      t.pc = if s.KEYS.getLsbD ((s.reg x).toNat % 16) = true then s.pc + 2 else s.pc + 4)

/-- R212, R224: with a key held `Fx0A` puts the least held key in `V[x]` and advances; with none held nothing changes
and the waiting cycle counts in the batch like any other, for every batch size. -/
def Obligations.KeyWaitTakesTheLeastKeyOrRepeats : Prop :=
  ∀ (s : State) (x : Reg),
    decodeWord (wordXKK 0xF x 0x0A) = .ok (.ldVxK x) ∧
    (∀ k, k < 16 → s.KEYS.getLsbD k = true → (∀ j, j < k → s.KEYS.getLsbD j = false) →
      ∃ t, exec (.ldVxK x) s = .next t ∧ (t.reg x).toNat = k ∧ t.pc = s.pc + 2 ∧
        (x ≠ VF → t.reg VF = s.reg VF)) ∧
    ((∀ j, j < 16 → s.KEYS.getLsbD j = false) →
      exec (.ldVxK x) s = .next s ∧
      (s.FAULT = none → s.pc.toNat ≤ 4094 → s.wordAtPc = wordXKK 0xF x 0x0A →
        ∀ period, ∃ t, cycle period s = .next t ∧ t.pc = s.pc ∧ SameProgramState s t ∧ CycleCounted period s t))

/-- R213, R214, R215: `Fx07` reads `DT`, `Fx15` and `Fx18` write `DT` and `ST`; no other instruction changes a timer,
so between two ticks `DT` reads the same until an `Fx15`. The first decrement of a written timer comes at the next
tick, at the end of the very cycle that wrote it when that cycle is the last of its batch. -/
def Obligations.TimersAreReadAndWritten : Prop :=
  ∀ (s : State) (x : Reg),
    decodeWord (wordXKK 0xF x 0x07) = .ok (.ldVxDT x) ∧ decodeWord (wordXKK 0xF x 0x15) = .ok (.ldDTVx x) ∧
    decodeWord (wordXKK 0xF x 0x18) = .ok (.ldSTVx x) ∧
    (∃ t, exec (.ldVxDT x) s = .next t ∧ t.reg x = s.DT ∧ t.pc = s.pc + 2 ∧ (x ≠ VF → t.reg VF = s.reg VF)) ∧
    (∃ t, exec (.ldDTVx x) s = .next t ∧ t.DT = s.reg x ∧ t.pc = s.pc + 2 ∧ t.V = s.V) ∧
    (∃ t, exec (.ldSTVx x) s = .next t ∧ t.ST = s.reg x ∧ t.pc = s.pc + 2 ∧ t.V = s.V) ∧
    (s.FAULT = none → s.pc.toNat ≤ 4094 → s.wordAtPc = wordXKK 0xF x 0x15 →
      ∀ period, ∃ t, cycle period s = .next t ∧ (s.CYC + 1 < period → t.DT = s.reg x) ∧
        (s.CYC + 1 = period → t.DT.toNat = (s.reg x).toNat - 1)) ∧
    (s.FAULT = none → s.pc.toNat ≤ 4094 → s.wordAtPc = wordXKK 0xF x 0x18 →
      ∀ period, ∃ t, cycle period s = .next t ∧ (s.CYC + 1 < period → t.ST = s.reg x) ∧
        (s.CYC + 1 = period → t.ST.toNat = (s.reg x).toNat - 1)) ∧
    (∀ i t, exec i s = .next t → (∀ z, i ≠ .ldDTVx z) → t.DT = s.DT) ∧
    (∀ i t, exec i s = .next t → (∀ z, i ≠ .ldSTVx z) → t.ST = s.ST)

/-! ### Frames: what an instruction leaves alone (00_scope.md R16, the spec's decision D18, notes/assumptions/16.md) -/

/-- Every general register is unchanged but the destinations and the flag of R20's lists of writers (the spec's
decision D18, notes/assumptions/16.md). -/
def Obligations.OnlyDestinationRegistersChange : Prop :=
  ∀ (i : Instr) (s t : State), exec i s = .next t → KeepsRegsExcept (regsWritten i) s t

/-- Every byte of memory reads as before but the bytes `Fx33` and `Fx55` store, which start at `I`: for every other
instruction no byte of memory changes (the spec's decision D18, notes/assumptions/16.md). -/
def Obligations.OnlyTheStoredBytesChange : Prop :=
  ∀ (i : Instr) (s t : State), exec i s = .next t →
    KeepsMemoryOutside s.base (bytesStored i) s t ∧ (bytesStored i = 0 → t.MEM = s.MEM ∧ KeepsMemory s t)

/-- Only `00E0` and `Dxyn` change the framebuffer (R30; the spec's decision D18, notes/assumptions/16.md). -/
def Obligations.OnlyClearAndDrawChangeTheDisplay : Prop :=
  ∀ (i : Instr) (s t : State), exec i s = .next t → i ≠ .cls → (∀ x y n, i ≠ .drw x y n) →
    t.FB = s.FB ∧ KeepsDisplay s t

/-- Only `2nnn` and `00EE` change the stack; a call writes the one entry at `SP`, a return writes none (R28; the
spec's decisions D10 and D18, notes/assumptions/14.md, 16.md). -/
def Obligations.OnlyCallAndReturnChangeTheStack : Prop :=
  ∀ (i : Instr) (s t : State), exec i s = .next t →
    (i ≠ .ret → (∀ a, i ≠ .call a) → KeepsStack s t) ∧
    (i = .ret → t.STACK = s.STACK) ∧
    (∀ (j : Nat) (h : j < 16), j ≠ s.SP.val → t.STACK[j] = s.STACK[j])

/-- Only `Annn`, `Fx1E` and `Fx29` change `I`: no memory access moves it (R25, R177; the spec's decision D18,
notes/assumptions/16.md). -/
def Obligations.OnlyIndexInstructionsChangeTheIndex : Prop :=
  ∀ (i : Instr) (s t : State), exec i s = .next t →
    (∀ a, i ≠ .ldI a) → (∀ x, i ≠ .addI x) → (∀ x, i ≠ .ldF x) → t.I = s.I

/-- No instruction touches the fault latch, the batch counter, the inputs or the model's sample count (the spec's
decision D18, notes/assumptions/16.md; the sample count is the model's, notes/assumptions/1.md). -/
def Obligations.InstructionsKeepThePlatformState : Prop :=
  ∀ (i : Instr) (s t : State), exec i s = .next t → KeepsPlatform s t

/-- R105: the instructions that override the default advance are exactly `00EE`, `1nnn`, `2nnn`, `Bnnn`, and `Fx0A`
when no key is pressed; a skip adds its own 2 under the default advance; an unmatched word advances. -/
def Obligations.OnlyFiveInstructionsOverrideTheAdvance : Prop :=
  ∀ (s t : State),
    (∀ i, exec i s = .next t → i ≠ .ret → (∀ a, i ≠ .jp a) → (∀ a, i ≠ .call a) → (∀ a, i ≠ .jpV0 a) →
      ((∀ x, i ≠ .ldVxK x) ∨ s.KEYS ≠ 0) →
      t.pc = s.pc + 2 ∨
      (t.pc = s.pc + 2 + 2 ∧ ((∃ x kk, i = .seImm x kk) ∨ (∃ x kk, i = .sneImm x kk) ∨ (∃ x y, i = .seReg x y) ∨
        (∃ x y, i = .sneReg x y) ∨ (∃ x, i = .skp x) ∨ (∃ x, i = .sknp x)))) ∧
    (∀ a, exec (.jp a) s = .next t → t.pc = a.setWidth 16) ∧
    (∀ a, exec (.call a) s = .next t → t.pc = a.setWidth 16) ∧
    (∀ a, exec (.jpV0 a) s = .next t → t.pc.toNat = (a.toNat + (s.reg 0).toNat) % 4096) ∧
    (∀ (j : Nat) (h : j < 16), s.SP.val = j + 1 → exec .ret s = .next t → t.pc = s.STACK[j]) ∧
    (∀ x, s.KEYS = 0 → exec (.ldVxK x) s = .next t → t.pc = s.pc) ∧
    (∀ w r, decodeWord w = .error r → runWord w s = .next t → t.pc = s.pc + 2)

/-! ### What cannot be learned -/

/-- Only `Ex9E`, `ExA1` and `Fx0A` depend on the key snapshot (R9, R244): any other instruction ends the same, stop or
next state, under every snapshot. -/
def Obligations.OnlyKeyInstructionsDependOnTheKeys : Prop :=
  ∀ (i : Instr) (s : State) (keys : BitVec 16),
    (∀ x, i ≠ .skp x) → (∀ x, i ≠ .sknp x) → (∀ x, i ≠ .ldVxK x) →
    exec i { s with KEYS := keys } = mapNext (fun t => { t with KEYS := keys }) (exec i s)

/-- Only `Cxkk` depends on the random byte (R10, R244). -/
def Obligations.OnlyRndDependsOnTheDraw : Prop :=
  ∀ (i : Instr) (s : State) (draw : Byte), (∀ x kk, i ≠ .rnd x kk) →
    exec i { s with RND := draw } = mapNext (fun t => { t with RND := draw }) (exec i s)

/-- No instruction reads the sound timer (R27): its value never shows in anything else. -/
def Obligations.SoundTimerIsNeverRead : Prop :=
  ∀ (i : Instr) (s : State) (v : Byte), (∀ x, i ≠ .ldSTVx x) →
    exec i { s with ST := v } = mapNext (fun t => { t with ST := v }) (exec i s)

/-- No cycle reads a dead stack entry (R28): from two states that differ only there, both stop alike or both go on, to
states that differ only there. So the value reset gives the dead entries (notes/assumptions/4.md) never matters. -/
def Obligations.DeadStackEntriesAreNeverRead : Prop :=
  ∀ (period : Nat) (s t : State), SameButDeadStack s t → OutcomesAlike (cycle period s) (cycle period t)
end

