-- ==== Sys2Proof/Laws/Decode.lean ====
section
/-! SUPPORT. The fields of a word put together by a format of 30_encoding.md R82, and of a word laid out in bytes. -/

namespace Sys2Proof

/-- The value of a concatenation. -/
theorem toNat_append_eq {n m : Nat} (a : BitVec n) (b : BitVec m) :
    (a ++ b).toNat = a.toNat * 2 ^ m + b.toNat := by
  rw [BitVec.toNat_append, ← Nat.shiftLeft_add_eq_or_of_lt b.isLt, Nat.shiftLeft_eq]

@[simp] theorem regField_toNat (x : Reg) : (regField x).toNat = x.val := rfl

theorem wordNNN_toNat (n1 : Nibble) (nnn : Addr12) : (wordNNN n1 nnn).toNat = n1.toNat * 4096 + nnn.toNat :=
  toNat_append_eq n1 nnn

theorem wordXKK_toNat (n1 : Nibble) (x : Reg) (kk : Byte) :
    (wordXKK n1 x kk).toNat = n1.toNat * 4096 + x.val * 256 + kk.toNat := by
  have h : (wordXKK n1 x kk).toNat = (n1 ++ regField x ++ kk).toNat := rfl
  rw [h, toNat_append_eq, toNat_append_eq, regField_toNat]
  omega

theorem wordXYN_toNat (n1 : Nibble) (x y : Reg) (n : Nibble) :
    (wordXYN n1 x y n).toNat = n1.toNat * 4096 + x.val * 256 + y.val * 16 + n.toNat := by
  have h : (wordXYN n1 x y n).toNat = (n1 ++ regField x ++ regField y ++ n).toNat := rfl
  rw [h, toNat_append_eq, toNat_append_eq, toNat_append_eq, regField_toNat, regField_toNat]
  omega

/-! ### The fields as numbers -/

theorem fieldN1_toNat (w : Word) : (fieldN1 w).toNat = w.toNat / 4096 % 16 := by
  simp [fieldN1, Nat.shiftRight_eq_div_pow]

theorem fieldX_val (w : Word) : (fieldX w).val = w.toNat / 256 % 16 := by
  simp [fieldX, Nat.shiftRight_eq_div_pow]

theorem fieldY_val (w : Word) : (fieldY w).val = w.toNat / 16 % 16 := by
  simp [fieldY, Nat.shiftRight_eq_div_pow]

theorem fieldN4_toNat (w : Word) : (fieldN4 w).toNat = w.toNat % 16 := by simp [fieldN4]

theorem fieldKK_toNat (w : Word) : (fieldKK w).toNat = w.toNat % 256 := by simp [fieldKK]

theorem fieldNNN_toNat (w : Word) : (fieldNNN w).toNat = w.toNat % 4096 := by simp [fieldNNN]

/-! ### The fields of each format -/

section Formats
variable (n1 n : Nibble) (x y : Reg) (kk : Byte) (nnn : Addr12)

@[simp] theorem fieldN1_wordNNN : fieldN1 (wordNNN n1 nnn) = n1 := by
  apply BitVec.eq_of_toNat_eq
  rw [fieldN1_toNat, wordNNN_toNat]
  omega

@[simp] theorem fieldNNN_wordNNN : fieldNNN (wordNNN n1 nnn) = nnn := by
  apply BitVec.eq_of_toNat_eq
  rw [fieldNNN_toNat, wordNNN_toNat]
  omega

@[simp] theorem fieldN1_wordXKK : fieldN1 (wordXKK n1 x kk) = n1 := by
  apply BitVec.eq_of_toNat_eq
  rw [fieldN1_toNat, wordXKK_toNat]
  omega

@[simp] theorem fieldX_wordXKK : fieldX (wordXKK n1 x kk) = x := by
  apply Fin.ext
  rw [fieldX_val, wordXKK_toNat]
  omega

@[simp] theorem fieldKK_wordXKK : fieldKK (wordXKK n1 x kk) = kk := by
  apply BitVec.eq_of_toNat_eq
  rw [fieldKK_toNat, wordXKK_toNat]
  omega

@[simp] theorem fieldN1_wordXYN : fieldN1 (wordXYN n1 x y n) = n1 := by
  apply BitVec.eq_of_toNat_eq
  rw [fieldN1_toNat, wordXYN_toNat]
  omega

@[simp] theorem fieldX_wordXYN : fieldX (wordXYN n1 x y n) = x := by
  apply Fin.ext
  rw [fieldX_val, wordXYN_toNat]
  omega

@[simp] theorem fieldY_wordXYN : fieldY (wordXYN n1 x y n) = y := by
  apply Fin.ext
  rw [fieldY_val, wordXYN_toNat]
  omega

@[simp] theorem fieldN4_wordXYN : fieldN4 (wordXYN n1 x y n) = n := by
  apply BitVec.eq_of_toNat_eq
  rw [fieldN4_toNat, wordXYN_toNat]
  omega

end Formats

/-! ### A word in bytes -/

theorem wordOfBytes_toNat (hi lo : Byte) : (wordOfBytes hi lo).toNat = hi.toNat * 256 + lo.toNat :=
  toNat_append_eq hi lo

/-- The bytes of a word spell it again (20_memory.md R52). -/
@[simp] theorem wordOfBytes_bytes (w : Word) : wordOfBytes (highByte w) (lowByte w) = w := by
  apply BitVec.eq_of_toNat_eq
  rw [wordOfBytes_toNat]
  simp only [highByte, lowByte, BitVec.extractLsb'_toNat, Nat.shiftRight_eq_div_pow]
  omega

/-- Decoding two bytes is decoding the word they spell. -/
theorem decode_cons (hi lo : Byte) (rest : List Byte) : decode (hi :: lo :: rest) =
    match decodeWord (wordOfBytes hi lo) with
    | .ok i => .ok (i, rest)
    | .error r => .error r := rfl

end Sys2Proof
end

