-- ==== Sys2Proof/Laws/State.lean ====
section
/-! SUPPORT. The small lemmas of the state: one per accessor and named update, true by `rfl` where they can be, so
that no later proof unfolds a record update. -/

namespace Sys2Proof.Machine

/-! ### Writing a register -/

section SetReg
variable (s : State) (x r : Reg) (b : Byte)

@[simp] theorem setReg_pc : (s.setReg x b).pc = s.pc := rfl
@[simp] theorem setReg_I : (s.setReg x b).I = s.I := rfl
@[simp] theorem setReg_DT : (s.setReg x b).DT = s.DT := rfl
@[simp] theorem setReg_ST : (s.setReg x b).ST = s.ST := rfl
@[simp] theorem setReg_STACK : (s.setReg x b).STACK = s.STACK := rfl
@[simp] theorem setReg_SP : (s.setReg x b).SP = s.SP := rfl
@[simp] theorem setReg_MEM : (s.setReg x b).MEM = s.MEM := rfl
@[simp] theorem setReg_FB : (s.setReg x b).FB = s.FB := rfl
@[simp] theorem setReg_FAULT : (s.setReg x b).FAULT = s.FAULT := rfl
@[simp] theorem setReg_CYC : (s.setReg x b).CYC = s.CYC := rfl
@[simp] theorem setReg_KEYS : (s.setReg x b).KEYS = s.KEYS := rfl
@[simp] theorem setReg_RND : (s.setReg x b).RND = s.RND := rfl
@[simp] theorem setReg_samples : (s.setReg x b).samples = s.samples := rfl

/-- Reading after writing: the one law of the register file. -/
theorem reg_setReg : (s.setReg x b).reg r = if r = x then b else s.reg r := by
  unfold State.reg State.setReg
  rw [Vector.getElem_set]
  by_cases h : r = x
  · simp [h]
  · rw [if_neg (fun e => h (Fin.ext e.symm)), if_neg h]

@[simp] theorem reg_setReg_self : (s.setReg x b).reg x = b := by rw [reg_setReg, if_pos rfl]

theorem reg_setReg_ne (h : r ≠ x) : (s.setReg x b).reg r = s.reg r := by rw [reg_setReg, if_neg h]

@[simp] theorem setVF_eq : s.setVF b = s.setReg VF b := rfl

end SetReg

/-! ### Moving the program counter -/

section Pc
variable (s : State) (c : Bool) (w : Word)

@[simp] theorem advance_pc : s.advance.pc = s.pc + 2 := rfl
@[simp] theorem advance_V : s.advance.V = s.V := rfl
@[simp] theorem advance_reg (r : Reg) : s.advance.reg r = s.reg r := rfl
@[simp] theorem advance_I : s.advance.I = s.I := rfl
@[simp] theorem advance_DT : s.advance.DT = s.DT := rfl
@[simp] theorem advance_ST : s.advance.ST = s.ST := rfl
@[simp] theorem advance_STACK : s.advance.STACK = s.STACK := rfl
@[simp] theorem advance_SP : s.advance.SP = s.SP := rfl
@[simp] theorem advance_MEM : s.advance.MEM = s.MEM := rfl
@[simp] theorem advance_FB : s.advance.FB = s.FB := rfl
@[simp] theorem advance_FAULT : s.advance.FAULT = s.FAULT := rfl
@[simp] theorem advance_CYC : s.advance.CYC = s.CYC := rfl
@[simp] theorem advance_KEYS : s.advance.KEYS = s.KEYS := rfl
@[simp] theorem advance_RND : s.advance.RND = s.RND := rfl
@[simp] theorem advance_samples : s.advance.samples = s.samples := rfl

@[simp] theorem jumpTo_pc : (s.jumpTo w).pc = w := rfl
@[simp] theorem jumpTo_V : (s.jumpTo w).V = s.V := rfl
@[simp] theorem jumpTo_reg (r : Reg) : (s.jumpTo w).reg r = s.reg r := rfl
@[simp] theorem jumpTo_I : (s.jumpTo w).I = s.I := rfl
@[simp] theorem jumpTo_DT : (s.jumpTo w).DT = s.DT := rfl
@[simp] theorem jumpTo_ST : (s.jumpTo w).ST = s.ST := rfl
@[simp] theorem jumpTo_STACK : (s.jumpTo w).STACK = s.STACK := rfl
@[simp] theorem jumpTo_SP : (s.jumpTo w).SP = s.SP := rfl
@[simp] theorem jumpTo_MEM : (s.jumpTo w).MEM = s.MEM := rfl
@[simp] theorem jumpTo_FB : (s.jumpTo w).FB = s.FB := rfl
@[simp] theorem jumpTo_FAULT : (s.jumpTo w).FAULT = s.FAULT := rfl
@[simp] theorem jumpTo_CYC : (s.jumpTo w).CYC = s.CYC := rfl
@[simp] theorem jumpTo_KEYS : (s.jumpTo w).KEYS = s.KEYS := rfl
@[simp] theorem jumpTo_RND : (s.jumpTo w).RND = s.RND := rfl
@[simp] theorem jumpTo_samples : (s.jumpTo w).samples = s.samples := rfl

/-- A skip changes `pc` and nothing else. -/
theorem skipIf_eq : s.skipIf c = { s with pc := if c then s.pc + 2 else s.pc } := by
  cases c <;> rfl

@[simp] theorem skipIf_pc : (s.skipIf c).pc = if c then s.pc + 2 else s.pc := by rw [skipIf_eq]
@[simp] theorem skipIf_V : (s.skipIf c).V = s.V := by rw [skipIf_eq]
@[simp] theorem skipIf_reg (r : Reg) : (s.skipIf c).reg r = s.reg r := by rw [skipIf_eq]; rfl
@[simp] theorem skipIf_I : (s.skipIf c).I = s.I := by rw [skipIf_eq]
@[simp] theorem skipIf_DT : (s.skipIf c).DT = s.DT := by rw [skipIf_eq]
@[simp] theorem skipIf_ST : (s.skipIf c).ST = s.ST := by rw [skipIf_eq]
@[simp] theorem skipIf_STACK : (s.skipIf c).STACK = s.STACK := by rw [skipIf_eq]
@[simp] theorem skipIf_SP : (s.skipIf c).SP = s.SP := by rw [skipIf_eq]
@[simp] theorem skipIf_MEM : (s.skipIf c).MEM = s.MEM := by rw [skipIf_eq]
@[simp] theorem skipIf_FB : (s.skipIf c).FB = s.FB := by rw [skipIf_eq]
@[simp] theorem skipIf_FAULT : (s.skipIf c).FAULT = s.FAULT := by rw [skipIf_eq]
@[simp] theorem skipIf_CYC : (s.skipIf c).CYC = s.CYC := by rw [skipIf_eq]
@[simp] theorem skipIf_KEYS : (s.skipIf c).KEYS = s.KEYS := by rw [skipIf_eq]
@[simp] theorem skipIf_RND : (s.skipIf c).RND = s.RND := by rw [skipIf_eq]
@[simp] theorem skipIf_samples : (s.skipIf c).samples = s.samples := by rw [skipIf_eq]

end Pc

/-! ### Reset with a font: everything but memory is `State.reset`'s -/

section Reset
variable (font : Config.Font)

@[simp] theorem resetWith_pc : (State.resetWith font).pc = State.reset.pc := rfl
@[simp] theorem resetWith_V : (State.resetWith font).V = State.reset.V := rfl
@[simp] theorem resetWith_I : (State.resetWith font).I = State.reset.I := rfl
@[simp] theorem resetWith_DT : (State.resetWith font).DT = State.reset.DT := rfl
@[simp] theorem resetWith_ST : (State.resetWith font).ST = State.reset.ST := rfl
@[simp] theorem resetWith_STACK : (State.resetWith font).STACK = State.reset.STACK := rfl
@[simp] theorem resetWith_SP : (State.resetWith font).SP = State.reset.SP := rfl
@[simp] theorem resetWith_FB : (State.resetWith font).FB = State.reset.FB := rfl
@[simp] theorem resetWith_FAULT : (State.resetWith font).FAULT = State.reset.FAULT := rfl
@[simp] theorem resetWith_CYC : (State.resetWith font).CYC = State.reset.CYC := rfl
@[simp] theorem resetWith_KEYS : (State.resetWith font).KEYS = State.reset.KEYS := rfl
@[simp] theorem resetWith_RND : (State.resetWith font).RND = State.reset.RND := rfl
@[simp] theorem resetWith_samples : (State.resetWith font).samples = State.reset.samples := rfl

end Reset

/-! ### Counting a cycle, ticking, sampling -/

section Platform
variable (s : State) (period : Nat)

@[simp] theorem countDown_toNat (t : Byte) : (countDown t).toNat = t.toNat - 1 := by
  unfold countDown
  split
  · simp_all
  · bv_omega

@[simp] theorem sampleInputs_V : s.sampleInputs.V = s.V := rfl
@[simp] theorem sampleInputs_reg (r : Reg) : s.sampleInputs.reg r = s.reg r := rfl
@[simp] theorem sampleInputs_pc : s.sampleInputs.pc = s.pc := rfl
@[simp] theorem sampleInputs_I : s.sampleInputs.I = s.I := rfl
@[simp] theorem sampleInputs_DT : s.sampleInputs.DT = s.DT := rfl
@[simp] theorem sampleInputs_ST : s.sampleInputs.ST = s.ST := rfl
@[simp] theorem sampleInputs_STACK : s.sampleInputs.STACK = s.STACK := rfl
@[simp] theorem sampleInputs_SP : s.sampleInputs.SP = s.SP := rfl
@[simp] theorem sampleInputs_MEM : s.sampleInputs.MEM = s.MEM := rfl
@[simp] theorem sampleInputs_FB : s.sampleInputs.FB = s.FB := rfl
@[simp] theorem sampleInputs_FAULT : s.sampleInputs.FAULT = s.FAULT := rfl
@[simp] theorem sampleInputs_CYC : s.sampleInputs.CYC = s.CYC := rfl

/-- Counting a cycle writes `CYC` and, on a full batch, the timers; nothing else. -/
theorem countCycle_eq : s.countCycle period =
    { s with
      CYC := if period ≤ s.CYC + 1 then 0 else s.CYC + 1
      DT := if period ≤ s.CYC + 1 then countDown s.DT else s.DT
      ST := if period ≤ s.CYC + 1 then countDown s.ST else s.ST } := by
  unfold State.countCycle State.tick
  split <;> rfl

@[simp] theorem countCycle_V : (s.countCycle period).V = s.V := by rw [countCycle_eq]
@[simp] theorem countCycle_reg (r : Reg) : (s.countCycle period).reg r = s.reg r := by rw [countCycle_eq]; rfl
@[simp] theorem countCycle_pc : (s.countCycle period).pc = s.pc := by rw [countCycle_eq]
@[simp] theorem countCycle_I : (s.countCycle period).I = s.I := by rw [countCycle_eq]
@[simp] theorem countCycle_STACK : (s.countCycle period).STACK = s.STACK := by rw [countCycle_eq]
@[simp] theorem countCycle_SP : (s.countCycle period).SP = s.SP := by rw [countCycle_eq]
@[simp] theorem countCycle_MEM : (s.countCycle period).MEM = s.MEM := by rw [countCycle_eq]
@[simp] theorem countCycle_FB : (s.countCycle period).FB = s.FB := by rw [countCycle_eq]
@[simp] theorem countCycle_FAULT : (s.countCycle period).FAULT = s.FAULT := by rw [countCycle_eq]
@[simp] theorem countCycle_samples : (s.countCycle period).samples = s.samples := by rw [countCycle_eq]
theorem countCycle_CYC : (s.countCycle period).CYC = if period ≤ s.CYC + 1 then 0 else s.CYC + 1 := by
  rw [countCycle_eq]
theorem countCycle_DT : (s.countCycle period).DT = if period ≤ s.CYC + 1 then countDown s.DT else s.DT := by
  rw [countCycle_eq]
theorem countCycle_ST : (s.countCycle period).ST = if period ≤ s.CYC + 1 then countDown s.ST else s.ST := by
  rw [countCycle_eq]

end Platform

end Sys2Proof.Machine
end

