-- ==== Sys2Proof/Laws/Memory.lean ====
section
/-! SUPPORT. The laws of memory: a read after a write, that every memory operation keeps the canonical form, and what
memory reads as after a reset with any font. -/

namespace Sys2Proof.Machine

/-- A read after a write (20_memory.md R60). -/
theorem Memory.read_write (m : Memory) (a b : Nat) (v : Byte) (h : m.Pairwise (fun c d => c.1 < d.1)) :
    (m.write a v).read b = if b = a then v else m.read b := by
  induction m with
  | nil =>
    by_cases hv : v = Memory.background a <;> by_cases hb : b = a <;>
      simp [Memory.write, Memory.read, hv, hb]
  | cons c m ih =>
    obtain ⟨k, w⟩ := c
    obtain ⟨hk, hm⟩ := List.pairwise_cons.mp h
    have unlisted : ∀ (n : Memory) (x : Nat), (∀ d ∈ n, x < d.1) → Memory.read n x = Memory.background x := by
      intro n x hx
      induction n with
      | nil => rfl
      | cons d n ihn =>
        have h1 := hx d (by simp)
        rw [Memory.read, if_neg (by omega)]
        exact ihn (fun e he => hx e (by simp [he]))
    unfold Memory.write
    by_cases h1 : a < k
    · rw [if_pos h1]
      have hread : ∀ d ∈ ((k, w) :: m : Memory), a < d.1 := by
        intro d hd
        rcases List.mem_cons.mp hd with rfl | hd
        · exact h1
        · exact Nat.lt_trans h1 (hk d hd)
      by_cases hv : v = Memory.background a
      · rw [if_pos hv]
        by_cases hb : b = a
        · rw [if_pos hb, hb, unlisted _ a hread, hv]
        · rw [if_neg hb]
      · rw [if_neg hv]
        by_cases hb : b = a
        · simp [Memory.read, hb]
        · rw [if_neg hb, Memory.read, if_neg hb]
    · rw [if_neg h1]
      by_cases h2 : a = k
      · rw [if_pos h2]
        by_cases hv : v = Memory.background a
        · rw [if_pos hv]
          by_cases hb : b = a
          · rw [if_pos hb, hb, unlisted m a (by intro d hd; rw [h2]; exact hk d hd), hv]
          · rw [if_neg hb, Memory.read, if_neg (by omega)]
        · rw [if_neg hv]
          by_cases hb : b = a
          · simp [Memory.read, hb]
          · rw [if_neg hb, Memory.read, if_neg hb, Memory.read, if_neg (by omega)]
      · rw [if_neg h2, Memory.read, ih hm, Memory.read]
        by_cases hb : b = a
        · rw [if_pos hb, if_neg (by omega), if_pos hb]
        · rw [if_neg hb]
          by_cases hbk : b = k
          · rw [if_pos hbk, if_neg hb]
          · rw [if_neg hbk, if_neg hb]

/-- Every cell a write lists was listed before or is the one written. -/
theorem Memory.mem_write {m : Memory} {a : Nat} {v : Byte} {c : Host.Cell} (h : c ∈ m.write a v) :
    c ∈ m ∨ (c = (a, v) ∧ v ≠ Memory.background a) := by
  induction m with
  | nil =>
    unfold Memory.write at h
    split at h
    · simp at h
    · simp only [List.mem_singleton] at h; exact .inr ⟨h, ‹_›⟩
  | cons d m ih =>
    unfold Memory.write at h
    split at h
    · split at h
      · exact .inl h
      · rcases List.mem_cons.mp h with h | h
        · exact .inr ⟨h, ‹_›⟩
        · exact .inl h
    · split at h
      · split at h
        · exact .inl (List.mem_cons_of_mem _ h)
        · rcases List.mem_cons.mp h with h | h
          · exact .inr ⟨h, ‹_›⟩
          · exact .inl (List.mem_cons_of_mem _ h)
      · rcases List.mem_cons.mp h with h | h
        · exact .inl (by rw [h]; exact List.mem_cons_self)
        · rcases ih h with h | h
          · exact .inl (List.mem_cons_of_mem _ h)
          · exact .inr h

/-- A write keeps the addresses strictly rising. -/
theorem Memory.write_rising (m : Memory) (a : Nat) (v : Byte) (h : m.Pairwise (fun c d => c.1 < d.1)) :
    (m.write a v).Pairwise (fun c d => c.1 < d.1) := by
  induction m with
  | nil => unfold Memory.write; split <;> simp
  | cons c m ih =>
    obtain ⟨hc, hm⟩ := List.pairwise_cons.mp h
    unfold Memory.write
    split
    · rename_i h1
      split
      · exact h
      · refine List.pairwise_cons.mpr ⟨?_, h⟩
        intro d hd
        rcases List.mem_cons.mp hd with rfl | hd
        · exact h1
        · exact Nat.lt_trans h1 (hc d hd)
    · split
      · rename_i h2
        split
        · exact hm
        · exact List.pairwise_cons.mpr ⟨fun d hd => by rw [h2]; exact hc d hd, hm⟩
      · refine List.pairwise_cons.mpr ⟨?_, ih hm⟩
        intro d hd
        rcases Memory.mem_write hd with hd | ⟨rfl, -⟩
        · exact hc d hd
        · show c.1 < a
          omega

/-- A write inside the address space keeps the canonical form. -/
theorem Memory.wf_write (m : Memory) (a : Nat) (v : Byte) (h : m.wf) (ha : a < Config.memSize) : (m.write a v).wf := by
  refine ⟨Memory.write_rising m a v h.1, ?_⟩
  intro c hc
  rcases Memory.mem_write hc with hc | ⟨rfl, hv⟩
  · exact h.2 c hc
  · exact ⟨ha, hv⟩

/-- A block write keeps the addresses strictly rising. -/
theorem Memory.writeBytes_rising (vs : List Byte) : ∀ (m : Memory) (a : Nat),
    m.Pairwise (fun c d => c.1 < d.1) → (m.writeBytes a vs).Pairwise (fun c d => c.1 < d.1) := by
  induction vs with
  | nil => intro m a h; exact h
  | cons v vs ih => intro m a h; exact ih _ _ (Memory.write_rising m a v h)

/-- A block write inside the address space keeps the canonical form. -/
theorem Memory.wf_writeBytes (vs : List Byte) : ∀ (m : Memory) (a : Nat),
    m.wf → a + vs.length ≤ Config.memSize → (m.writeBytes a vs).wf := by
  induction vs with
  | nil => intro m a h _; exact h
  | cons v vs ih =>
    intro m a h ha
    simp only [List.length_cons] at ha
    exact ih _ _ (Memory.wf_write m a v h (by omega)) (by omega)

/-- A read after a block write: the bytes written, and everything else as before. -/
theorem Memory.read_writeBytes (vs : List Byte) : ∀ (m : Memory) (a b : Nat),
    m.Pairwise (fun c d => c.1 < d.1) →
    (m.writeBytes a vs).read b = if a ≤ b ∧ b < a + vs.length then vs.getD (b - a) 0 else m.read b := by
  induction vs with
  | nil => intro m a b _; simp [Memory.writeBytes]
  | cons v vs ih =>
    intro m a b h
    rw [Memory.writeBytes, ih _ _ _ (Memory.write_rising m a v h), Memory.read_write m a b v h]
    simp only [List.length_cons]
    by_cases h1 : a + 1 ≤ b ∧ b < a + 1 + vs.length
    · rw [if_pos h1, if_pos (by omega)]
      obtain ⟨k, hk⟩ : ∃ k, b - a = k + 1 := ⟨b - a - 1, by omega⟩
      rw [hk, show b - (a + 1) = k by omega]
      simp
    · rw [if_neg h1]
      by_cases h2 : b = a
      · rw [if_pos h2, if_pos (by omega), h2]
        simp
      · rw [if_neg h2, if_neg (by omega)]

/-- A block read has the length asked for. -/
@[simp] theorem Memory.readBytes_length (m : Memory) (n : Nat) : ∀ a, (m.readBytes a n).length = n := by
  induction n with
  | zero => intro a; rfl
  | succ n ih => intro a; simp [Memory.readBytes, ih]

/-- Byte `k` of a block read is the cell at `a + k`. -/
theorem Memory.readBytes_getElem (m : Memory) (n : Nat) : ∀ (a k : Nat) (h : k < (m.readBytes a n).length),
    (m.readBytes a n)[k] = m.read (a + k) := by
  induction n with
  | zero => intro a k h; simp [Memory.readBytes] at h
  | succ n ih =>
    intro a k h
    cases k with
    | zero => rfl
    | succ k =>
      simp only [Memory.readBytes, List.getElem_cons_succ]
      rw [ih]
      congr 1
      omega

/-- After a reset with any font every cell reads as its reset content (10_state.md R36, 00_scope.md R7). -/
theorem resetWith_byteAt (font : Config.Font) (a : Nat) :
    (State.resetWith font).byteAt a = Memory.resetContent font a := by
  show Memory.read (Memory.writeBytes [] 0 font.toList) a = _
  rw [Memory.read_writeBytes _ _ _ _ List.Pairwise.nil]
  simp only [Vector.length_toList, Nat.zero_le, true_and, Nat.zero_add, Nat.sub_zero]
  unfold Memory.resetContent
  by_cases h : a < Config.fontLen
  · rw [if_pos h, dif_pos h, List.getD_eq_getElem _ _ (by simpa using h)]
    simp
  · rw [if_neg h, dif_neg h]
    show Memory.background a = 0
    unfold Memory.background Memory.resetContent
    rw [dif_neg h]

/-- The default font is the base of the representation: resetting with it lists no cell. -/
theorem resetWith_default : State.resetWith Config.font = State.reset := by
  have nothing_listed : Memory.writeBytes [] 0 Config.font.toList = [] := by decide
  unfold State.resetWith
  rw [show State.reset.MEM = [] from rfl, nothing_listed]
  rfl

/-- The bounds test as arithmetic (R57). -/
theorem inRange_iff (a n : Nat) : inRange a n = true ↔ n = 0 ∨ a + n ≤ 4096 := by
  simp [inRange, Config.memSize]

/-- All that `memRead` can answer (R58). -/
theorem memRead_eq (m : Memory) (a n : Nat) :
    (memRead m a n = .ok (m.readBytes a n) ∧ (n = 0 ∨ a + n ≤ 4096)) ∨
    (memRead m a n = .error (max a 4096) ∧ n ≠ 0 ∧ 4096 < a + n) := by
  unfold memRead
  by_cases h : inRange a n = true
  · rw [if_pos h]; exact .inl ⟨rfl, (inRange_iff a n).mp h⟩
  · rw [if_neg h]
    rw [inRange_iff] at h
    exact .inr ⟨rfl, by omega, by omega⟩

/-- All that `memWrite` can answer (R58). -/
theorem memWrite_eq (m : Memory) (a : Nat) (vs : List Byte) :
    (memWrite m a vs = .ok (m.writeBytes a vs) ∧ (vs.length = 0 ∨ a + vs.length ≤ 4096)) ∨
    (memWrite m a vs = .error (max a 4096) ∧ vs.length ≠ 0 ∧ 4096 < a + vs.length) := by
  unfold memWrite
  by_cases h : inRange a vs.length = true
  · rw [if_pos h]; exact .inl ⟨rfl, (inRange_iff a _).mp h⟩
  · rw [if_neg h]
    rw [inRange_iff] at h
    exact .inr ⟨rfl, by omega, by omega⟩

/-- `memWrite` keeps the canonical form. -/
theorem memWrite_wf {m m' : Memory} {a : Nat} {vs : List Byte} (h : memWrite m a vs = .ok m') (hm : m.wf) :
    m'.wf := by
  rcases memWrite_eq m a vs with ⟨e, hlen⟩ | ⟨e, -⟩
  · obtain rfl : m.writeBytes a vs = m' := by rw [e] at h; exact Except.ok.inj h
    by_cases h0 : vs.length = 0
    · rw [List.length_eq_zero_iff] at h0; subst h0; exact hm
    · exact Memory.wf_writeBytes vs m a hm (by have : Config.memSize = 4096 := rfl; omega)
  · rw [e] at h; exact nomatch h

end Sys2Proof.Machine
end

