-- ==== Sys2Proof/Laws/Ops.lean ====
section
/-! SUPPORT. One lemma per shared operation that says all it can do: the call stack, the register block, the
framebuffer, the fetch and the cycle. -/

namespace Sys2Proof.Machine

/-- All that `Push` can answer (41_control_flow.md R120). -/
theorem push_eq (s : State) (v : Word) :
    (∃ h : s.SP.val < Config.stackDepth,
      s.push v = .ok { s with STACK := s.STACK.set s.SP.val v h, SP := ⟨s.SP.val + 1, Nat.succ_lt_succ h⟩ }) ∨
    (s.SP.val = 16 ∧ s.push v = .error (.stackOverflow s.pc)) := by
  unfold State.push
  by_cases h : s.SP.val < Config.stackDepth
  · exact .inl ⟨h, by rw [dif_pos h]⟩
  · refine .inr ⟨?_, by rw [dif_neg h]⟩
    have := s.SP.isLt
    have : Config.stackDepth = 16 := rfl
    omega

/-- All that `Pop` can answer (41_control_flow.md R121). -/
theorem pop_eq (s : State) :
    (∃ h : s.SP.val - 1 < Config.stackDepth, s.SP.val ≠ 0 ∧
      s.pop = .ok (s.STACK[s.SP.val - 1], { s with SP := ⟨s.SP.val - 1, Nat.lt_succ_of_lt h⟩ })) ∨
    (s.SP.val = 0 ∧ s.pop = .error (.stackUnderflow s.pc)) := by
  unfold State.pop
  by_cases h : s.SP.val = 0
  · exact .inr ⟨h, by rw [dif_pos h]⟩
  · exact .inl ⟨_, h, by rw [dif_neg h]⟩

/-- A block of registers after it is loaded (43_index_memory.md R175). -/
theorem setRegsFrom_getElem (bs : List Byte) : ∀ (i : Nat) (v : Vector Byte 16) (r : Nat) (hr : r < 16),
    (setRegsFrom bs i v)[r] = if i ≤ r ∧ r < i + bs.length then bs.getD (r - i) 0 else v[r] := by
  induction bs with
  | nil => intro i v r hr; simp [setRegsFrom]
  | cons b bs ih =>
    intro i v r hr
    rw [setRegsFrom, ih]
    simp only [List.length_cons]
    by_cases h1 : i + 1 ≤ r ∧ r < i + 1 + bs.length
    · rw [if_pos h1, if_pos (by omega)]
      obtain ⟨k, hk⟩ : ∃ k, r - i = k + 1 := ⟨r - i - 1, by omega⟩
      rw [hk, show r - (i + 1) = k by omega]
      simp
    · rw [if_neg h1, Vector.getElem_setIfInBounds]
      by_cases h2 : i = r
      · rw [if_pos h2, if_pos (by omega), h2]
        simp
      · rw [if_neg h2, if_neg (by omega)]

@[simp] theorem regsUpTo_length (s : State) (x : Reg) : (s.regsUpTo x).length = x.val + 1 := by
  simp [State.regsUpTo]

/-- Byte `k` of the stored block is `V[k]` (43_index_memory.md R174). -/
theorem regsUpTo_getD (s : State) (x r : Reg) (h : r ≤ x) : (s.regsUpTo x).getD r.val 0 = s.reg r := by
  have hr : r.val < x.val + 1 := Nat.lt_succ_of_le h
  rw [List.getD_eq_getElem _ _ (by simpa using hr)]
  simp [State.regsUpTo, State.reg]

/-- Flipping one pixel. -/
theorem pixel_flip (fb : FrameBuffer) (r r' : Fin Config.fbHeight) (c c' : Fin Config.fbWidth) :
    (fb.flip r c).pixel r' c' = if r' = r ∧ c' = c then !fb.pixel r c else fb.pixel r' c' := by
  unfold FrameBuffer.flip FrameBuffer.pixel
  by_cases hr : r' = r
  · subst hr
    by_cases hc : c' = c
    · subst hc; simp
    · have : c.val ≠ c'.val := fun e => hc (Fin.ext e.symm)
      simp [hc, Vector.getElem_set_ne, this]
  · have : r.val ≠ r'.val := fun e => hr (Fin.ext e.symm)
    simp [hr, Vector.getElem_set_ne, this]

/-- Every pixel of the dark framebuffer is dark. -/
@[simp] theorem pixel_dark (r : Fin Config.fbHeight) (c : Fin Config.fbWidth) : FrameBuffer.dark.pixel r c = false := by
  simp [FrameBuffer.dark, FrameBuffer.pixel]

/-- All that a fetch can answer (40_cycle.md R101). -/
theorem fetch_eq (s : State) :
    (s.pc.toNat ≤ 4094 ∧ s.fetch = .ok s.wordAtPc) ∨
    (4095 ≤ s.pc.toNat ∧ s.fetch = .error (max s.pc.toNat 4096)) := by
  unfold State.fetch
  rcases memRead_eq s.MEM s.pc.toNat 1 with ⟨e1, h1⟩ | ⟨e1, -, h1⟩ <;>
    rcases memRead_eq s.MEM (s.pc.toNat + 1) 1 with ⟨e2, h2⟩ | ⟨e2, -, h2⟩ <;> rw [e1, e2]
  · exact .inl ⟨by omega, rfl⟩
  · refine .inr ⟨by omega, ?_⟩
    have : max (s.pc.toNat + 1) 4096 = max s.pc.toNat 4096 := by omega
    rw [← this]
    rfl
  · omega
  · exact .inr ⟨by omega, rfl⟩

/-- All that one cycle can answer (40_cycle.md R100, R107). -/
theorem cycle_eq (period : Nat) (s : State) :
    (∃ r, s.FAULT = some r ∧ cycle period s = .fault (.stopped r)) ∨
    (s.FAULT = none ∧ 4095 ≤ s.pc.toNat ∧
      cycle period s = .fault (.outOfBounds s.pc (max s.pc.toNat 4096))) ∨
    (s.FAULT = none ∧ s.pc.toNat ≤ 4094 ∧ cycle period s = finishCycle period (runWord s.wordAtPc s)) := by
  unfold cycle
  cases hF : s.FAULT with
  | some r => exact .inl ⟨r, rfl, rfl⟩
  | none =>
    rcases fetch_eq s with ⟨h, e⟩ | ⟨h, e⟩
    · exact .inr (.inr ⟨rfl, h, by rw [e]⟩)
    · exact .inr (.inl ⟨rfl, h, by rw [e]; rfl⟩)

/-- A cycle answers a next state exactly when the executed word does. -/
theorem finishCycle_next {period : Nat} {r : Result} {t : State} (h : finishCycle period r = .next t) :
    ∃ u, r = .next u ∧ t = (u.countCycle period).sampleInputs := by
  cases r with
  | next u => exact ⟨u, rfl, (Host.Outcome.next.inj h).symm⟩
  | fault f => exact nomatch h
  | refused f => exact nomatch h

end Sys2Proof.Machine
end

