-- ==== Sys2Proof/Laws/Exec.lean ====
section
/-! SUPPORT. The arms of `exec` as equations, and what each meaning that can stop answers when it answers a next state:
the one case of its shared operation, with the condition under which it holds. The other meanings answer a next state
by definition. At the end, runs of the core. -/

namespace Sys2Proof.Machine

/-! ### The arms of `exec` -/

section Arms
variable (s : State) (x y : Reg) (kk : Byte) (nnn : Addr12) (n : Nat)

theorem exec_cls : exec .cls s = execCls s := rfl
theorem exec_ret : exec .ret s = execRet s := rfl
theorem exec_jp : exec (.jp nnn) s = execJp nnn s := rfl
theorem exec_call : exec (.call nnn) s = execCall nnn s := rfl
theorem exec_seImm : exec (.seImm x kk) s = execSeImm x kk s := rfl
theorem exec_sneImm : exec (.sneImm x kk) s = execSneImm x kk s := rfl
theorem exec_seReg : exec (.seReg x y) s = execSeReg x y s := rfl
theorem exec_ldImm : exec (.ldImm x kk) s = execLdImm x kk s := rfl
theorem exec_addImm : exec (.addImm x kk) s = execAddImm x kk s := rfl
theorem exec_ldReg : exec (.ldReg x y) s = execLdReg x y s := rfl
theorem exec_orReg : exec (.orReg x y) s = execOrReg x y s := rfl
theorem exec_andReg : exec (.andReg x y) s = execAndReg x y s := rfl
theorem exec_xorReg : exec (.xorReg x y) s = execXorReg x y s := rfl
theorem exec_addReg : exec (.addReg x y) s = execAddReg x y s := rfl
theorem exec_subReg : exec (.subReg x y) s = execSubReg x y s := rfl
theorem exec_shr : exec (.shr x y) s = execShr x y s := rfl
theorem exec_subnReg : exec (.subnReg x y) s = execSubnReg x y s := rfl
theorem exec_shl : exec (.shl x y) s = execShl x y s := rfl
theorem exec_sneReg : exec (.sneReg x y) s = execSneReg x y s := rfl
theorem exec_ldI : exec (.ldI nnn) s = execLdI nnn s := rfl
theorem exec_jpV0 : exec (.jpV0 nnn) s = execJpV0 nnn s := rfl
theorem exec_rnd : exec (.rnd x kk) s = execRnd x kk s := rfl
theorem exec_drw : exec (.drw x y n) s = execDrw x y n s := rfl
theorem exec_skp : exec (.skp x) s = execSkp x s := rfl
theorem exec_sknp : exec (.sknp x) s = execSknp x s := rfl
theorem exec_ldVxDT : exec (.ldVxDT x) s = execLdVxDT x s := rfl
theorem exec_ldVxK : exec (.ldVxK x) s = execLdVxK x s := rfl
theorem exec_ldDTVx : exec (.ldDTVx x) s = execLdDTVx x s := rfl
theorem exec_ldSTVx : exec (.ldSTVx x) s = execLdSTVx x s := rfl
theorem exec_addI : exec (.addI x) s = execAddI x s := rfl
theorem exec_ldF : exec (.ldF x) s = execLdF x s := rfl
theorem exec_ldB : exec (.ldB x) s = execLdB x s := rfl
theorem exec_store : exec (.store x) s = execStore x s := rfl
theorem exec_load : exec (.load x) s = execLoad x s := rfl

end Arms

/-! ### Next states -/

/-- A store at `I` that completes (`Fx33`, `Fx55`: 43_index_memory.md R173, R174). -/
theorem storeAtI_next {s t : State} {bytes : List Byte} (h : s.storeAtI bytes = .next t) :
    t = { s with MEM := s.MEM.writeBytes s.base bytes }.advance ∧
      (bytes.length = 0 ∨ s.base + bytes.length ≤ 4096) := by
  unfold State.storeAtI at h
  rcases memWrite_eq s.MEM s.base bytes with ⟨e, hl⟩ | ⟨e, -⟩ <;> rw [e] at h
  · exact ⟨(Host.Outcome.next.inj h).symm, hl⟩
  · exact nomatch h

/-- A load at `I` that completes (`Fx65`: 43_index_memory.md R175). -/
theorem execLoad_next {s t : State} {x : Reg} (h : execLoad x s = .next t) :
    t = { s with V := setRegsFrom (s.MEM.readBytes s.base (x.val + 1)) 0 s.V }.advance ∧
      s.base + x.val + 1 ≤ 4096 := by
  unfold execLoad at h
  rcases memRead_eq s.MEM s.base (x.val + 1) with ⟨e, hl⟩ | ⟨e, -⟩ <;> rw [e] at h
  · exact ⟨(Host.Outcome.next.inj h).symm, by omega⟩
  · exact nomatch h

/-- A return that completes (`00EE`: 41_control_flow.md R122). -/
theorem execRet_next {s t : State} (h : execRet s = .next t) :
    ∃ hs : s.SP.val - 1 < Config.stackDepth, s.SP.val ≠ 0 ∧
      t = ({ s with SP := ⟨s.SP.val - 1, Nat.lt_succ_of_lt hs⟩ } : State).jumpTo s.STACK[s.SP.val - 1] := by
  unfold execRet at h
  rcases pop_eq s with ⟨h1, h2, e⟩ | ⟨-, e⟩ <;> rw [e] at h
  · exact ⟨h1, h2, (Host.Outcome.next.inj h).symm⟩
  · exact nomatch h

/-- A call that completes (`2nnn`: 41_control_flow.md R124). -/
theorem execCall_next {s t : State} {nnn : Addr12} (h : execCall nnn s = .next t) :
    ∃ hs : s.SP.val < Config.stackDepth,
      t = ({ s with
              STACK := s.STACK.set s.SP.val s.returnAddress hs
              SP := ⟨s.SP.val + 1, Nat.succ_lt_succ hs⟩ } : State).jumpTo (addressImm nnn) := by
  unfold execCall at h
  rcases push_eq s s.returnAddress with ⟨h1, e⟩ | ⟨-, e⟩ <;> rw [e] at h
  · exact ⟨h1, (Host.Outcome.next.inj h).symm⟩
  · exact nomatch h

/-- A draw that completes (`Dxyn`: 44_display.md R192). -/
theorem execDrw_next {s t : State} {x y : Reg} {n : Nat} (h : execDrw x y n s = .next t) :
    ∃ drawn : FrameBuffer × Bool,
      drawn = drawSprite s.FB (s.MEM.readBytes s.base n)
        ((s.setReg VF 0).reg x).toNat ((s.setReg VF 0).reg y).toNat ∧
      t = ({ s.setReg VF 0 with FB := drawn.1 }.setReg VF (flagByte drawn.2)).advance ∧
      (n = 0 ∨ s.base + n ≤ 4096) := by
  unfold execDrw at h
  simp only [setVF_eq, setReg_MEM, setReg_FB] at h
  rw [show (s.setReg VF 0).base = s.base from rfl] at h
  rcases memRead_eq s.MEM s.base n with ⟨e, hl⟩ | ⟨e, -⟩ <;> rw [e] at h
  · exact ⟨_, rfl, (Host.Outcome.next.inj h).symm, hl⟩
  · exact nomatch h

/-! ### Runs -/

/-- A run whose first step answers `t` goes on from `t`. -/
theorem run_succ_of_step {s t : State} (k : Nat) (h : step s = .next t) : core.run (k + 1) s = core.run k t := by
  have first : core.step s = .next t := h
  simp only [Host.Core.run]
  rw [first]

/-- A run of one step and more that answers a next state: its first step does, and the rest runs from there. -/
theorem run_succ_next {s u : State} {k : Nat} (h : core.run (k + 1) s = .next u) :
    ∃ t, step s = .next t ∧ core.run k t = .next u := by
  simp only [Host.Core.run] at h
  split at h
  · exact ⟨_, ‹_›, h⟩
  · exact nomatch h
  · exact nomatch h

end Sys2Proof.Machine
end

