-- ==== Sys2Proof/Laws/PerInstr.lean ====
section
/-! SUPPORT. A fact about every instruction as syntax, one lemma per constructor: the word of an instruction agrees
with its row of the opcode table on the bits the row's mask fixes (30_encoding.md R84). -/

namespace Sys2Proof.Laws

/-- Masking a word of format `NNN`. -/
theorem wordNNN_and (a b : Nibble) (u v : Addr12) : wordNNN a u &&& wordNNN b v = wordNNN (a &&& b) (u &&& v) :=
  BitVec.and_append

/-- Masking a word of format `XKK`, digit by digit. -/
theorem wordXKK_and (a b : Nibble) (x m : Reg) (u v : Byte) :
    wordXKK a x u &&& wordXKK b m v = wordXKK (a &&& b) (regField x &&& regField m).toFin (u &&& v) := by
  have h : (a ++ regField x ++ u) &&& (b ++ regField m ++ v)
      = (a &&& b) ++ (regField x &&& regField m) ++ (u &&& v) := by
    rw [BitVec.and_append, BitVec.and_append]
  exact h

/-- Masking a word of format `XYN`, digit by digit. -/
theorem wordXYN_and (a b n k : Nibble) (x y m l : Reg) :
    wordXYN a x y n &&& wordXYN b m l k
      = wordXYN (a &&& b) (regField x &&& regField m).toFin (regField y &&& regField l).toFin (n &&& k) := by
  have h : (a ++ regField x ++ regField y ++ n) &&& (b ++ regField m ++ regField l ++ k)
      = (a &&& b) ++ (regField x &&& regField m) ++ (regField y &&& regField l) ++ (n &&& k) := by
    rw [BitVec.and_append, BitVec.and_append, BitVec.and_append]
  exact h

/-- Register field 0 masks a digit away. -/
theorem regField_and_zero (x : Reg) : (regField x &&& regField 0).toFin = (0 : Reg) := by
  have h : regField x &&& regField 0 = 0#4 := by
    show regField x &&& 0#4 = 0#4
    exact BitVec.and_zero
  rw [h]
  rfl

/-- Format `NNN`: the top digit is fixed. -/
theorem row_NNN (a : Nibble) (u : Addr12) : wordNNN a u &&& 0xF000 = wordNNN a 0 := by
  have h := wordNNN_and a 0xF#4 u 0#12
  rw [show a &&& 0xF#4 = a from BitVec.and_allOnes, show u &&& 0#12 = 0#12 from BitVec.and_zero] at h
  exact h

/-- Format `XKK`: the top digit is fixed. -/
theorem row_XKK (a : Nibble) (x : Reg) (u : Byte) : wordXKK a x u &&& 0xF000 = wordXKK a 0 0 := by
  have h := wordXKK_and a 0xF#4 x 0 u 0#8
  rw [show a &&& 0xF#4 = a from BitVec.and_allOnes, regField_and_zero,
    show u &&& 0#8 = 0#8 from BitVec.and_zero] at h
  exact h

/-- Format `X`: the top digit and the low byte are fixed. -/
theorem row_X (a : Nibble) (x : Reg) (u : Byte) : wordXKK a x u &&& 0xF0FF = wordXKK a 0 u := by
  have h := wordXKK_and a 0xF#4 x 0 u 0xFF#8
  rw [show a &&& 0xF#4 = a from BitVec.and_allOnes, regField_and_zero,
    show u &&& 0xFF#8 = u from BitVec.and_allOnes] at h
  exact h

/-- Format `XY`: the top and the last digit are fixed. -/
theorem row_XY (a n : Nibble) (x y : Reg) : wordXYN a x y n &&& 0xF00F = wordXYN a 0 0 n := by
  have h := wordXYN_and a 0xF#4 n 0xF#4 x y 0 0
  rw [show a &&& 0xF#4 = a from BitVec.and_allOnes, regField_and_zero, regField_and_zero,
    show n &&& 0xF#4 = n from BitVec.and_allOnes] at h
  exact h

/-- Format `XYN`: the top digit is fixed. -/
theorem row_XYN (a n : Nibble) (x y : Reg) : wordXYN a x y n &&& 0xF000 = wordXYN a 0 0 0 := by
  have h := wordXYN_and a 0xF#4 n 0#4 x y 0 0
  rw [show a &&& 0xF#4 = a from BitVec.and_allOnes, regField_and_zero, regField_and_zero,
    show n &&& 0#4 = 0#4 from BitVec.and_zero] at h
  exact h

/-- The word of `i` selects the row of `i`. -/
def EncodeMatchesRow.Statement (i : Instr) : Prop := i.row.Matches (encode i)

theorem EncodeMatchesRow.cls : EncodeMatchesRow.Statement .cls := by
  unfold EncodeMatchesRow.Statement; decide

theorem EncodeMatchesRow.ret : EncodeMatchesRow.Statement .ret := by
  unfold EncodeMatchesRow.Statement; decide

theorem EncodeMatchesRow.jp (nnn : Addr12) : EncodeMatchesRow.Statement (.jp nnn) :=
  row_NNN _ _

theorem EncodeMatchesRow.call (nnn : Addr12) : EncodeMatchesRow.Statement (.call nnn) :=
  row_NNN _ _

theorem EncodeMatchesRow.seImm (x : Reg) (kk : Byte) : EncodeMatchesRow.Statement (.seImm x kk) :=
  row_XKK _ _ _

theorem EncodeMatchesRow.sneImm (x : Reg) (kk : Byte) : EncodeMatchesRow.Statement (.sneImm x kk) :=
  row_XKK _ _ _

theorem EncodeMatchesRow.seReg (x : Reg) (y : Reg) : EncodeMatchesRow.Statement (.seReg x y) :=
  row_XY _ _ _ _

theorem EncodeMatchesRow.ldImm (x : Reg) (kk : Byte) : EncodeMatchesRow.Statement (.ldImm x kk) :=
  row_XKK _ _ _

theorem EncodeMatchesRow.addImm (x : Reg) (kk : Byte) : EncodeMatchesRow.Statement (.addImm x kk) :=
  row_XKK _ _ _

theorem EncodeMatchesRow.ldReg (x : Reg) (y : Reg) : EncodeMatchesRow.Statement (.ldReg x y) :=
  row_XY _ _ _ _

theorem EncodeMatchesRow.orReg (x : Reg) (y : Reg) : EncodeMatchesRow.Statement (.orReg x y) :=
  row_XY _ _ _ _

theorem EncodeMatchesRow.andReg (x : Reg) (y : Reg) : EncodeMatchesRow.Statement (.andReg x y) :=
  row_XY _ _ _ _

theorem EncodeMatchesRow.xorReg (x : Reg) (y : Reg) : EncodeMatchesRow.Statement (.xorReg x y) :=
  row_XY _ _ _ _

theorem EncodeMatchesRow.addReg (x : Reg) (y : Reg) : EncodeMatchesRow.Statement (.addReg x y) :=
  row_XY _ _ _ _

theorem EncodeMatchesRow.subReg (x : Reg) (y : Reg) : EncodeMatchesRow.Statement (.subReg x y) :=
  row_XY _ _ _ _

theorem EncodeMatchesRow.shr (x : Reg) (y : Reg) : EncodeMatchesRow.Statement (.shr x y) :=
  row_XY _ _ _ _

theorem EncodeMatchesRow.subnReg (x : Reg) (y : Reg) : EncodeMatchesRow.Statement (.subnReg x y) :=
  row_XY _ _ _ _

theorem EncodeMatchesRow.shl (x : Reg) (y : Reg) : EncodeMatchesRow.Statement (.shl x y) :=
  row_XY _ _ _ _

theorem EncodeMatchesRow.sneReg (x : Reg) (y : Reg) : EncodeMatchesRow.Statement (.sneReg x y) :=
  row_XY _ _ _ _

theorem EncodeMatchesRow.ldI (nnn : Addr12) : EncodeMatchesRow.Statement (.ldI nnn) :=
  row_NNN _ _

theorem EncodeMatchesRow.jpV0 (nnn : Addr12) : EncodeMatchesRow.Statement (.jpV0 nnn) :=
  row_NNN _ _

theorem EncodeMatchesRow.rnd (x : Reg) (kk : Byte) : EncodeMatchesRow.Statement (.rnd x kk) :=
  row_XKK _ _ _

theorem EncodeMatchesRow.drw (x : Reg) (y : Reg) (n : Nat) : EncodeMatchesRow.Statement (.drw x y n) :=
  row_XYN _ _ _ _

theorem EncodeMatchesRow.skp (x : Reg) : EncodeMatchesRow.Statement (.skp x) :=
  row_X _ _ _

theorem EncodeMatchesRow.sknp (x : Reg) : EncodeMatchesRow.Statement (.sknp x) :=
  row_X _ _ _

theorem EncodeMatchesRow.ldVxDT (x : Reg) : EncodeMatchesRow.Statement (.ldVxDT x) :=
  row_X _ _ _

theorem EncodeMatchesRow.ldVxK (x : Reg) : EncodeMatchesRow.Statement (.ldVxK x) :=
  row_X _ _ _

theorem EncodeMatchesRow.ldDTVx (x : Reg) : EncodeMatchesRow.Statement (.ldDTVx x) :=
  row_X _ _ _

theorem EncodeMatchesRow.ldSTVx (x : Reg) : EncodeMatchesRow.Statement (.ldSTVx x) :=
  row_X _ _ _

theorem EncodeMatchesRow.addI (x : Reg) : EncodeMatchesRow.Statement (.addI x) :=
  row_X _ _ _

theorem EncodeMatchesRow.ldF (x : Reg) : EncodeMatchesRow.Statement (.ldF x) :=
  row_X _ _ _

theorem EncodeMatchesRow.ldB (x : Reg) : EncodeMatchesRow.Statement (.ldB x) :=
  row_X _ _ _

theorem EncodeMatchesRow.store (x : Reg) : EncodeMatchesRow.Statement (.store x) :=
  row_X _ _ _

theorem EncodeMatchesRow.load (x : Reg) : EncodeMatchesRow.Statement (.load x) :=
  row_X _ _ _

end Sys2Proof.Laws
end

