-- ==== Sys2Proof/Tests/Slice0.lean ====
section
/-! SUPPORT. Tests: the well-formedness smoke test, the decoding of every constructor from a word written out bit by
bit from the encodings of 30_encoding.md R84, single steps against the vectors of 95_test_vectors.md (parts 1 and 2,
computed there from the spec's rules), and one witness for the hypotheses of each obligation that has some, with the
boundary values of its clauses. -/

namespace Sys2Proof.Tests

open Sys2Proof Sys2Proof.Machine

/-! ### Helpers -/

/-- The reset state with known inputs: no key held, draw 0. -/
def base : State := { State.reset with KEYS := 0, RND := 0 }

/-- `base` with registers set. -/
def regs (l : List (Reg × Byte)) (s : State := base) : State := l.foldl (fun s p => s.setReg p.1 p.2) s

/-- `s` with bytes placed at `a`. -/
def mem (a : Nat) (bytes : List Byte) (s : State) : State := { s with MEM := s.MEM.writeBytes a bytes }

/-- `s` with one pixel lit or darkened. -/
def flip (r : Fin 32) (c : Fin 64) (s : State) : State := { s with FB := s.FB.flip r c }

/-- One step of `s` with the word `w` placed where it fetches. -/
def run1 (w : Nat) (s : State) : Result := step (s.withFetchWord 16 w)

/-- A view of the next state, if there is one. -/
def after {α : Type} (r : Result) (view : State → α) : Option α :=
  match r with
  | .next t => some (view t)
  | .fault _ => none
  | .refused _ => none

/-- The fault, if there is one. -/
def fault (r : Result) : Option Fault :=
  match r with
  | .next _ => none
  | .fault f => some f
  | .refused _ => none

/-! ### Well-formedness: the one check -/

theorem test_wellformed_row_count : (Instr.drw 0 0 16).wellFormed = false ∧ (Instr.drw 0 0 15).wellFormed = true := by
  decide

/-! ### Decoding: every constructor, from a written-out word -/

theorem test_decode_control :
    decodeWord 0b0000_0000_1110_1110 = .ok .ret ∧
    decodeWord 0b0001_1010_1011_1100 = .ok (.jp 0xABC) ∧
    decodeWord 0b0010_1010_1011_1100 = .ok (.call 0xABC) ∧
    decodeWord 0b0011_1010_0100_0010 = .ok (.seImm 10 0x42) ∧
    decodeWord 0b0100_1010_0100_0010 = .ok (.sneImm 10 0x42) ∧
    decodeWord 0b0101_0001_0010_0000 = .ok (.seReg 1 2) ∧
    decodeWord 0b1001_0001_0010_0000 = .ok (.sneReg 1 2) ∧
    decodeWord 0b1011_0011_0000_0000 = .ok (.jpV0 0x300) := by decide

theorem test_decode_alu :
    decodeWord 0b0110_1010_0111_1111 = .ok (.ldImm 10 0x7F) ∧
    decodeWord 0b0111_0000_0110_0100 = .ok (.addImm 0 100) ∧
    decodeWord 0b1000_0001_0010_0000 = .ok (.ldReg 1 2) ∧
    decodeWord 0b1000_0001_0010_0001 = .ok (.orReg 1 2) ∧
    decodeWord 0b1000_0001_0010_0010 = .ok (.andReg 1 2) ∧
    decodeWord 0b1000_0001_0010_0011 = .ok (.xorReg 1 2) ∧
    decodeWord 0b1000_0001_0010_0100 = .ok (.addReg 1 2) ∧
    decodeWord 0b1000_0001_0010_0101 = .ok (.subReg 1 2) ∧
    decodeWord 0b1000_0001_0010_0110 = .ok (.shr 1 2) ∧
    decodeWord 0b1000_0001_0010_0111 = .ok (.subnReg 1 2) ∧
    decodeWord 0b1000_0001_0010_1110 = .ok (.shl 1 2) ∧
    decodeWord 0b1100_0001_0000_1111 = .ok (.rnd 1 0x0F) := by decide

theorem test_decode_index_memory :
    decodeWord 0b1010_0010_0010_1000 = .ok (.ldI 0x228) ∧
    decodeWord 0b1111_0010_0001_1110 = .ok (.addI 2) ∧
    decodeWord 0b1111_0011_0010_1001 = .ok (.ldF 3) ∧
    decodeWord 0b1111_0001_0011_0011 = .ok (.ldB 1) ∧
    decodeWord 0b1111_0010_0101_0101 = .ok (.store 2) ∧
    decodeWord 0b1111_0010_0110_0101 = .ok (.load 2) := by decide

theorem test_decode_display_keys_timers :
    decodeWord 0b0000_0000_1110_0000 = .ok .cls ∧
    decodeWord 0b1101_0000_0001_0010 = .ok (.drw 0 1 2) ∧
    decodeWord 0b1110_0001_1001_1110 = .ok (.skp 1) ∧
    decodeWord 0b1110_0001_1010_0001 = .ok (.sknp 1) ∧
    decodeWord 0b1111_0010_0000_0111 = .ok (.ldVxDT 2) ∧
    decodeWord 0b1111_0010_0000_1010 = .ok (.ldVxK 2) ∧
    decodeWord 0b1111_0010_0001_0101 = .ok (.ldDTVx 2) ∧
    decodeWord 0b1111_0010_0001_1000 = .ok (.ldSTVx 2) := by decide

/-- The unmatched words of 95_test_vectors.md 2.1, and too few bytes. -/
theorem test_decode_rejects :
    ([0x0000, 0x0123, 0x00E1, 0x01EE, 0x5AB1, 0x9AB1, 0x8129, 0x812F, 0xE19F, 0xF1FF, 0xF175, 0xFFFF].all
      fun w => decodeWord w == .error (.unmatched w)) = true ∧
    decode [0x12] = .error .truncated ∧
    decode [0xA2, 0x28, 0x60] = .ok (.ldI 0x228, [0x60]) ∧
    decodeTableWord 16 0x8125 = some (.subReg 1 2) ∧ decodeTableWord 16 0x5AB1 = none := by decide

/-! ### One step each: the cycle (95_test_vectors.md 2.1) -/

theorem test_unmatched_advances :
    after (run1 0x5AB1 (regs [(10, 1), (11, 1)])) (fun t => (t.pc, t.CYC)) = some (0x202, 1) := by decide
theorem test_fetch_at_4094 :
    after (run1 0x6001 { base with pc := 0xFFE }) (fun t => (t.reg 0, t.pc)) = some (1, 0x1000) := by decide
theorem test_fetch_at_4095 : fault (step { base with pc := 0xFFF }) = some (.outOfBounds 0xFFF 4096) := by decide
theorem test_fetch_odd :
    after (run1 0x6A07 { base with pc := 0x201 }) (fun t => (t.reg 10, t.pc)) = some (7, 0x203) := by decide

/-! ### Control flow (95_test_vectors.md 2.2) -/

theorem test_jp : after (run1 0x1ABC base) (fun t => t.pc) = some 0xABC := by decide
theorem test_call_top : after (run1 0x2300 { base with SP := 15 }) (fun t => (t.pc, t.SP.val, t.STACK[15]))
    = some (0x300, 16, 0x202) := by decide
theorem test_call_overflow : fault (run1 0x2300 { base with SP := 16 }) = some (.stackOverflow 0x200) := by decide
theorem test_ret : after (run1 0x00EE { base with SP := 1, STACK := base.STACK.set 0 0x345 })
    (fun t => (t.pc, t.SP.val)) = some (0x345, 0) := by decide
theorem test_ret_underflow : fault (run1 0x00EE base) = some (.stackUnderflow 0x200) := by decide
theorem test_jpV0_wraps : after (run1 0xBFFF (regs [(0, 0xFF)])) (fun t => t.pc) = some 0x0FE := by decide
theorem test_jpV0_not_x : after (run1 0xB300 (regs [(3, 0x40)])) (fun t => t.pc) = some 0x300 := by decide
theorem test_seImm : after (run1 0x3A42 (regs [(10, 0x42)])) (fun t => t.pc) = some 0x204 ∧
    after (run1 0x3A42 (regs [(10, 0x43)])) (fun t => t.pc) = some 0x202 := by decide
theorem test_sneImm : after (run1 0x4A42 (regs [(10, 0x42)])) (fun t => t.pc) = some 0x202 ∧
    after (run1 0x4A42 (regs [(10, 0x43)])) (fun t => t.pc) = some 0x204 := by decide
theorem test_seReg : after (run1 0x5120 (regs [(1, 9), (2, 9)])) (fun t => t.pc) = some 0x204 ∧
    after (run1 0x5120 (regs [(1, 9), (2, 8)])) (fun t => t.pc) = some 0x202 := by decide
theorem test_sneReg : after (run1 0x9120 (regs [(1, 9), (2, 9)])) (fun t => t.pc) = some 0x202 ∧
    after (run1 0x9120 (regs [(1, 9), (2, 8)])) (fun t => t.pc) = some 0x204 := by decide
theorem test_skip_past_the_end : after (run1 0x3000 { base with pc := 0xFFE }) (fun t => t.pc) = some 0x1002 := by decide

/-! ### Registers and ALU (95_test_vectors.md 2.3) -/

theorem test_ldImm : after (run1 0x6A7F (regs [(10, 3)])) (fun t => (t.reg 10, t.pc)) = some (0x7F, 0x202) := by decide
theorem test_addImm_no_carry : after (run1 0x7064 (regs [(0, 200)])) (fun t => (t.reg 0, t.reg VF)) = some (44, 0) := by
  decide
theorem test_ldReg : after (run1 0x8120 (regs [(1, 1), (2, 9)])) (fun t => t.reg 1) = some 9 := by decide
/-- The examples of 42_alu.md R143, R144, R145. -/
theorem test_bitwise : after (run1 0x8121 (regs [(1, 0xF0), (2, 0x0F)])) (fun t => t.reg 1) = some 0xFF ∧
    after (run1 0x8122 (regs [(1, 0xF0), (2, 0x3C)])) (fun t => t.reg 1) = some 0x30 ∧
    after (run1 0x8123 (regs [(1, 0xF0), (2, 0x3C)])) (fun t => t.reg 1) = some 0xCC := by decide
theorem test_addReg : after (run1 0x8124 (regs [(1, 200), (2, 100)])) (fun t => (t.reg 1, t.reg VF)) = some (44, 1) := by
  decide
theorem test_addReg_VF : after (run1 0x81F4 (regs [(1, 250), (15, 10)])) (fun t => (t.reg 1, t.reg VF)) = some (4, 1) ∧
    after (run1 0x8F14 (regs [(15, 200), (1, 100)])) (fun t => t.reg VF) = some 44 := by decide
theorem test_subReg : after (run1 0x8125 (regs [(1, 3), (2, 5)])) (fun t => (t.reg 1, t.reg VF)) = some (254, 0) ∧
    after (run1 0x8125 (regs [(1, 7), (2, 7)])) (fun t => (t.reg 1, t.reg VF)) = some (0, 1) := by decide
theorem test_subReg_VF : after (run1 0x81F5 (regs [(1, 5), (15, 3)])) (fun t => (t.reg 1, t.reg VF)) = some (4, 1) ∧
    after (run1 0x8F15 (regs [(15, 5), (1, 3)])) (fun t => t.reg VF) = some 254 := by decide
/-- The examples of 42_alu.md R148 and R150. -/
theorem test_shifts : after (run1 0x8126 (regs [(1, 0x05), (2, 0xFF)])) (fun t => (t.reg 1, t.reg VF)) = some (2, 1) ∧
    after (run1 0x812E (regs [(1, 0x81), (2, 0xFF)])) (fun t => (t.reg 1, t.reg VF)) = some (2, 1) := by decide
theorem test_shifts_VF : after (run1 0x8FA6 (regs [(15, 0xFF)])) (fun t => t.reg VF) = some 0 ∧
    after (run1 0x8FAE (regs [(15, 0x80)])) (fun t => t.reg VF) = some 2 := by decide
theorem test_subnReg : after (run1 0x8127 (regs [(1, 3), (2, 5)])) (fun t => (t.reg 1, t.reg VF)) = some (2, 1) := by
  decide
theorem test_subnReg_VF : after (run1 0x81F7 (regs [(1, 3), (15, 5)])) (fun t => (t.reg 1, t.reg VF)) = some (254, 1) ∧
    after (run1 0x8F17 (regs [(15, 3), (1, 5)])) (fun t => t.reg VF) = some 4 := by decide
/-- The example of 42_alu.md R151. -/
theorem test_rnd : after (run1 0xC10F { base with RND := 0xA7 }) (fun t => t.reg 1) = some 0x07 := by decide

/-! ### Index register and memory (95_test_vectors.md 2.4) -/

theorem test_ldI : after (run1 0xAFFF base) (fun t => t.I) = some 0xFFF := by decide
theorem test_addI_wraps : after (run1 0xF11E { regs [(1, 0xFF), (15, 9)] with I := 0xFFF })
    (fun t => (t.I, t.reg VF)) = some (0x0FE, 9) := by decide
theorem test_ldF : after (run1 0xF129 (regs [(1, 0xFF)])) (fun t => t.I) = some 0x4FB := by decide
theorem test_ldB : after (run1 0xF133 { regs [(1, 157)] with I := 0x300 })
    (fun t => (t.byteAt 0x300, t.byteAt 0x301, t.byteAt 0x302, t.I)) = some (1, 5, 7, 0x300) := by decide
theorem test_ldB_bounds : fault (run1 0xF133 { base with I := 4094 }) = some (.outOfBounds 0x200 4096) ∧
    after (run1 0xF133 { regs [(1, 128)] with I := 4093 }) (fun t => t.byteAt 4095) = some 8 := by decide
theorem test_store : after (run1 0xF255 { regs [(0, 1), (1, 2), (2, 3), (3, 4)] with I := 0x300 })
    (fun t => (t.byteAt 0x300, t.byteAt 0x301, t.byteAt 0x302, t.byteAt 0x303, t.I)) = some (1, 2, 3, 0, 0x300) := by
  decide
theorem test_store_bounds : fault (run1 0xF155 { base with I := 4095 }) = some (.outOfBounds 0x200 4096) ∧
    after (run1 0xF055 { regs [(0, 0xAB)] with I := 4095 }) (fun t => t.byteAt 4095) = some 0xAB := by decide
theorem test_load_font : after (run1 0xF465 { regs [(5, 0x77)] with I := 5 })
    (fun t => (t.reg 0, t.reg 1, t.reg 2, t.reg 3, t.reg 4, t.reg 5)) = some (0x20, 0x60, 0x20, 0x20, 0x70, 0x77) := by
  decide
theorem test_load_bounds : fault (run1 0xF165 { base with I := 4095 }) = some (.outOfBounds 0x200 4096) ∧
    after (run1 0xF065 (mem 4095 [0x5A] { base with I := 4095 })) (fun t => t.reg 0) = some 0x5A := by decide

/-! ### Display (95_test_vectors.md 2.5) -/

theorem test_cls : after (run1 0x00E0 (flip 31 63 (flip 5 5 (regs [(15, 1)]))))
    (fun t => (t.pixel 31 63, t.pixel 5 5, t.reg VF)) = some (false, false, 1) := by decide
theorem test_drw_wraps : after (run1 0xD012 (mem 0x300 [0xC0, 0x30] { regs [(1, 31)] with I := 0x300 }))
    (fun t => ([t.pixel 31 0, t.pixel 31 1, t.pixel 31 2, t.pixel 0 1, t.pixel 0 2, t.pixel 0 3], t.reg VF))
    = some ([true, true, false, false, true, true], 0) := by decide
theorem test_drw_collides : after (run1 0xD011 (mem 0x300 [0xC0] (flip 0 1 { base with I := 0x300 })))
    (fun t => (t.pixel 0 0, t.pixel 0 1, t.pixel 0 2, t.reg VF)) = some (true, false, false, 1) := by decide
theorem test_drw_VF_column : after (run1 0xDF11 (mem 0x300 [0x80] { regs [(15, 10), (1, 3)] with I := 0x300 }))
    (fun t => (t.pixel 3 0, t.pixel 3 10, t.reg VF)) = some (true, false, 0) := by decide
theorem test_drw_bounds : fault (run1 0xD01F { base with I := 4082 }) = some (.outOfBounds 0x200 4096) ∧
    after (run1 0xD01F (mem 4095 [0x01] { base with I := 4081 })) (fun t => t.pixel 14 7) = some true ∧
    after (run1 0xD010 { regs [(15, 1)] with I := 0xFFF }) (fun t => (t.reg VF, t.pc)) = some (0, 0x202) := by decide

/-! ### Keypad and timers (95_test_vectors.md 2.6, 2.7) -/

theorem test_skp : after (run1 0xE19E { regs [(1, 0x1A)] with KEYS := 0x0400 }) (fun t => t.pc) = some 0x204 ∧
    after (run1 0xE19E { regs [(1, 5)] with KEYS := 0xFFDF }) (fun t => t.pc) = some 0x202 := by decide
theorem test_sknp : after (run1 0xE1A1 { regs [(1, 0xF3)] with KEYS := 0x0008 }) (fun t => t.pc) = some 0x202 ∧
    after (run1 0xE1A1 (regs [(1, 5)])) (fun t => t.pc) = some 0x204 := by decide
theorem test_ldVxK_waits : after (run1 0xF30A (regs [(3, 0x77)])) (fun t => (t.pc, t.reg 3, t.CYC))
    = some (0x200, 0x77, 1) := by decide
theorem test_ldVxK_least : after (run1 0xF30A { regs [(3, 0x77)] with KEYS := 0x8208 }) (fun t => (t.pc, t.reg 3))
    = some (0x202, 3) := by decide
theorem test_ldVxDT : after (run1 0xF207 { base with DT := 0x42 }) (fun t => t.reg 2) = some 0x42 := by decide
theorem test_ldDTVx : after (run1 0xF215 (regs [(2, 0x33)])) (fun t => (t.DT, t.ST)) = some (0x33, 0) := by decide
theorem test_ldSTVx : after (run1 0xF218 (regs [(2, 0x33)])) (fun t => (t.DT, t.ST)) = some (0, 0x33) := by decide
theorem test_tick_after_batch : after (run1 0x1200 { base with DT := 5, ST := 0, CYC := 9 })
    (fun t => (t.DT, t.ST, t.CYC)) = some (4, 0, 0) ∧
    after (run1 0x1200 { base with DT := 5, CYC := 8 }) (fun t => (t.DT, t.CYC)) = some (5, 9) := by decide

/-! ### Witnesses: the hypotheses of each obligation can be met, at the boundaries of its clauses -/

/-- The invariant at the default batch size, of `base` and of a state with a full stack at the last fetchable word. -/
theorem base_inv : base.Inv 10 :=
  ⟨by decide, by decide, by decide, fun j h hj => absurd hj (by simp [base, State.reset]), by decide, rfl⟩

/-- A full stack of the largest return addresses, at the last fetchable word. -/
def full : State := { base with pc := 4094, SP := 16, STACK := Vector.replicate 16 4096, CYC := 9, I := 4095 }

theorem full_inv : full.Inv 10 :=
  ⟨by decide, by decide, by decide, by intro j h _; simp [full], by decide, rfl⟩

theorem witness_DecodeOfEncodeGivesTheInstructionBack : (Instr.drw 15 15 15).WellFormed := by decide
theorem witness_EncodeOfDecodeGivesTheWordBack : decodeWord 0xFF65 = .ok (.load 15) := by decide
theorem witness_DecoderSelectsTheMatchingRow :
    decodeWord 0x8FFE = .ok (.shl 15 15) ∧ (Instr.shl 0 0).row ∈ opcodeTable ∧ (Instr.shl 0 0).row.Matches 0x8FFE := by
  decide
theorem witness_RejectedWordsAreTheListedGroups : decodeWord 0xFFFF = .error (.unmatched 0xFFFF) := by decide

/-- A next state, and a fault. -/
theorem witness_StepRunsTheDecodedInstruction :
    (∃ s : State, ∃ t, s.FAULT = none ∧ s.pc.toNat = 4094 ∧
      decodeWord (s.byteAt s.pc.toNat ++ s.byteAt (s.pc.toNat + 1)) = .ok (.ldImm 0 1) ∧ exec (.ldImm 0 1) s = .next t) ∧
    (∃ s : State, ∃ f, s.FAULT = none ∧ s.pc.toNat = 0x200 ∧
      decodeWord (s.byteAt s.pc.toNat ++ s.byteAt (s.pc.toNat + 1)) = .ok .ret ∧ exec .ret s = .fault f) :=
  ⟨⟨mem 4094 [0x60, 0x01] full, _, rfl, by decide, by decide, rfl⟩,
    ⟨mem 0x200 [0x00, 0xEE] base, _, rfl, by decide, by decide, rfl⟩⟩

theorem witness_PlacedInstructionIsTheOneThatRuns :
    (Instr.drw 0 0 15).WellFormed ∧ full.MEM.wf ∧ full.FAULT = none ∧ full.pc.toNat = 4094 := by decide
theorem witness_UnmatchedWordIsANoOp :
    (mem 4094 [0x5A, 0xB1] full).FAULT = none ∧ (mem 4094 [0x5A, 0xB1] full).pc.toNat = 4094 ∧
    ∀ r ∈ opcodeTable, ¬ r.Matches (mem 4094 [0x5A, 0xB1] full).wordAtPc := by decide
/-- Both clauses of the cycle count are met: a batch that goes on and one that is full. -/
theorem witness_UnmatchedWordIsANoOp_count : base.CYC + 1 < 10 ∧ full.CYC + 1 = 10 := by decide
theorem witness_FetchIsBigEndianAndBounded :
    full.pc.toNat = 4094 ∧ ({ base with pc := 4095 } : State).pc.toNat = 4095 ∧ base.FAULT = none ∧
    ({ base with pc := 4096 } : State).pc.toNat = 4096 := by decide
theorem witness_FaultedCoreTakesNoStep :
    ({ base with FAULT := some ⟨.stackUnderflow, some 0x200⟩ } : State).FAULT = some ⟨.stackUnderflow, some 0x200⟩ := rfl
theorem witness_FatalErrorStaysLatched :
    base.FAULT = none ∧ ∃ f, cycle 10 { base with pc := 4095 } = .fault f := ⟨rfl, _, rfl⟩

/-- The last state that completes and the first that stops, for each form that can stop. -/
theorem witness_InstructionsStopExactlyWhereListed :
    (¬ FaultCondition { base with SP := 1 } .ret ∧ FaultCondition base .ret) ∧
    (¬ FaultCondition { base with SP := 15 } (.call 0) ∧ FaultCondition { base with SP := 16 } (.call 0)) ∧
    (¬ FaultCondition { base with I := 4095 } (.drw 0 0 0) ∧ ¬ FaultCondition { base with I := 4081 } (.drw 0 0 15) ∧
      FaultCondition { base with I := 4082 } (.drw 0 0 15)) ∧
    (¬ FaultCondition { base with I := 4093 } (.ldB 0) ∧ FaultCondition { base with I := 4094 } (.ldB 0)) ∧
    (¬ FaultCondition { base with I := 4080 } (.store 15) ∧ FaultCondition { base with I := 4081 } (.store 15)) ∧
    (¬ FaultCondition { base with I := 4080 } (.load 15) ∧ FaultCondition { base with I := 4081 } (.load 15)) ∧
    ¬ FaultCondition base .cls := by
  simp [FaultCondition, base, State.reset, Config.stackDepth]

theorem witness_StepIsNeverStuck : base.FAULT = none := rfl
theorem witness_TickCountsBothTimersDown :
    (∃ t, exec (.ldDTVx 0) base = .next t) ∧
    ({ base with FAULT := some ⟨.stackOverflow, none⟩ } : State).FAULT = some ⟨.stackOverflow, none⟩ := ⟨⟨_, rfl⟩, rfl⟩
theorem witness_TickFollowsAFullBatch :
    full.FAULT = none ∧ full.pc.toNat = 4094 ∧ full.CYC + 1 = 10 ∧ full.CYC + 1 < 11 ∧
    ∃ u, runWord full.wordAtPc full = .next u := ⟨rfl, by decide, rfl, by decide, _, rfl⟩
theorem witness_BatchCounterCountsCycles : full.CYC < Config.cyclesPerTick ∧ ∃ t, core.run 1 full = .next t :=
  ⟨by decide, _, rfl⟩
theorem witness_SelfJumpIsARestState :
    (mem 4094 [0x1F, 0xFE] full).FAULT = none ∧ (mem 4094 [0x1F, 0xFE] full).CYC < Config.cyclesPerTick ∧
    (mem 4094 [0x1F, 0xFE] full).pc.toNat = 4094 ∧ (0xFFE : Addr12).toNat = (mem 4094 [0x1F, 0xFE] full).pc.toNat ∧
    (mem 4094 [0x1F, 0xFE] full).wordAtPc = wordNNN 0x1 0xFFE := by decide
theorem witness_StepKeepsTheInvariant : 0 < 10 ∧ full.Inv 10 ∧ (∃ t, cycle 10 full = .next t) ∧
    full.Inv Config.cyclesPerTick ∧ ∃ t, step full = .next t := ⟨by decide, full_inv, ⟨_, rfl⟩, full_inv, _, rfl⟩
theorem witness_ResetMeetsTheInvariant : 0 < 1 := by decide
theorem witness_ResetLeavesTheListedValues : 0 < 80 ∧ 79 < 80 ∧ 80 ≤ 80 := by decide
/-- A font that differs from the default in its first and its last byte: those two cells, and the first past the font. -/
theorem test_reset_with_another_font :
    (State.resetWith ((Config.font.set 0 0x5A).set 79 0x00)).MEM = [(0, 0x5A), (79, 0x00)] ∧
    (State.resetWith ((Config.font.set 0 0x5A).set 79 0x00)).byteAt 80 = 0 := by decide
/-- Glyphs 0 and F of the table of 10_state.md R37. -/
theorem test_default_font : State.reset.MEM.readBytes 0 5 = [0xF0, 0x90, 0x90, 0x90, 0xF0] ∧
    State.reset.MEM.readBytes 75 5 = [0xF0, 0x80, 0xF0, 0x80, 0x80] := by decide
theorem witness_LoadPlacesTheImageOrFails :
    base.MEM.wf ∧ 3584 < (List.replicate 3585 (0 : Byte)).length ∧ (List.replicate 3584 (0 : Byte)).length ≤ 3584 ∧
    3583 < (List.replicate 3584 (0 : Byte)).length :=
  ⟨by decide, by rw [List.length_replicate]; decide, by rw [List.length_replicate], by rw [List.length_replicate]; decide⟩

/-- Empty and full stack, the word at `pc`, a state of the invariant, and another word of group 0. -/
theorem witness_ReturnPopsThePc :
    (fieldN1 0x01EE = 0x0 ∧ (0x01EE : Word) ≠ 0x00E0 ∧ (0x01EE : Word) ≠ 0x00EE) ∧
    ((mem 4094 [0x00, 0xEE] { base with pc := 4094 }).SP.val = 0 ∧
      (mem 4094 [0x00, 0xEE] { base with pc := 4094 }).FAULT = none ∧
      (mem 4094 [0x00, 0xEE] { base with pc := 4094 }).wordAtPc = 0x00EE) ∧
    ({ base with SP := 1 } : State).SP.val = 0 + 1 ∧ full.SP.val = 15 + 1 ∧ full.Inv 10 :=
  ⟨by decide, by decide, by decide, by decide, full_inv⟩
theorem witness_JumpGoesToTheAddress :
    (0xFFE : Addr12).toNat = full.pc.toNat ∧ (0xFFF : Addr12) = 0xFFF ∧ full.FAULT = none := by decide
theorem witness_CallPushesTheReturnAddress :
    ({ base with SP := 15 } : State).SP.val < 16 ∧ 14 ≠ ({ base with SP := 15 } : State).SP.val ∧
    (mem 4094 [0x2F, 0xFF] full).SP.val = 16 ∧ (mem 4094 [0x2F, 0xFF] full).FAULT = none ∧
    (mem 4094 [0x2F, 0xFF] full).pc.toNat = 4094 ∧ (mem 4094 [0x2F, 0xFF] full).wordAtPc = wordNNN 0x2 0xFFF := by decide
theorem witness_NestedCallsReturnInReverseOrder :
    ({ base with SP := 14 } : State).SP.val + ([0x300, 0x400] : List Addr12).length = 16 ∧
    (1 ≤ 1 ∧ 2 ≤ ([0x300, 0x400] : List Addr12).length) ∧
    16 < ({ base with SP := 15 } : State).SP.val + ([0x300, 0x400] : List Addr12).length := by decide
theorem witness_SkipComparesTwoRegisters : (0x1 : Nibble) ≠ 0 ∧ (0xF : Nibble) ≠ 0 := by decide
/-- The hypotheses `x ≠ VF` and `x = VF` of the register and ALU statements. -/
theorem witness_registers : (14 : Reg) ≠ VF ∧ (15 : Reg) = VF := by decide
theorem witness_RandomDrawIsMasked : (0x07 : Byte) &&& ~~~(0x0F : Byte) = 0 ∧ (0x0F : Byte) &&& ~~~(0x0F : Byte) = 0 := by
  decide
theorem witness_DecimalDigitsAreStored : base.MEM.wf ∧ ({ base with I := 4093 } : State).I.toNat + 3 = 4096 ∧
    ({ base with I := 4094 } : State).I.toNat + 3 = 4097 := by decide
theorem witness_RegisterBlockIsStored : base.MEM.wf ∧ ({ base with I := 4080 } : State).I.toNat + 15 + 1 = 4096 ∧
    ({ base with I := 4081 } : State).I.toNat + 15 + 1 = 4097 ∧ (15 : Reg) ≤ 15 := by decide
theorem witness_RegisterBlockIsLoaded : ({ base with I := 4081 } : State).I.toNat + 14 + 1 = 4096 ∧
    ({ base with I := 4082 } : State).I.toNat + 14 + 1 = 4097 ∧ (14 : Reg) ≤ 14 ∧ (14 : Reg) < 15 := by decide
theorem witness_StoredRegistersLoadBack : full.MEM.wf ∧ (∃ t, exec (.store 0) full = .next t) ∧ (0 : Reg) ≤ 0 :=
  ⟨by decide, ⟨_, rfl⟩, by decide⟩
theorem witness_StoredBytesAreFetchedNext :
    ∃ t, exec (.store 15) { base with I := 0x1F4 } = .next t ∧ base.MEM.wf ∧ t.pc.toNat = 0x1F4 + (14 : Reg).val ∧
      (15 : Reg).val = (14 : Reg).val + 1 ∧ (15 : Reg) ≤ 15 := ⟨_, rfl, by decide, by decide, by decide, by decide⟩
theorem witness_CanonicalMemoriesThatReadAlikeAreEqual :
    Memory.wf [(0, 1), (4095, 1)] ∧ ∀ a, Memory.read [(0, 1), (4095, 1)] a = Memory.read [(0, 1), (4095, 1)] a :=
  ⟨by decide, fun _ => rfl⟩
theorem witness_ClearScreenClearsEveryPixel :
    fieldN1 0x0FE0 = 0x0 ∧ (0x0FE0 : Word) ≠ 0x00E0 ∧ (0x0FE0 : Word) ≠ 0x00EE := by decide

/-- A sprite that fits exactly, one with no rows, one that does not fit, a covered pixel and one that is not. -/
theorem witness_DrawInvertsTheCoveredPixels :
    15 < 16 ∧ ({ base with I := 4081 } : State).I.toNat + 15 = 4096 ∧ ({ base with I := 4082 } : State).I.toNat + 15 = 4097 ∧
    SpriteCovers base 15 63 31 31 63 ∧ ¬ SpriteCovers base 0 63 31 31 63 :=
  ⟨by decide, by decide, by decide, ⟨0, 0, by decide, by decide, by decide, by decide, by decide⟩,
    fun ⟨k, _, hk, _⟩ => absurd hk (by omega)⟩
theorem witness_DrawingTwiceRestoresTheScreen :
    15 < 16 ∧ ({ base with I := 4081 } : State).I.toNat + 15 = 4096 ∧ ∀ r c, base.pixel r c = false :=
  ⟨by decide, by decide, fun r c => pixel_dark r c⟩
/-- Only the highest key held, and no key held. -/
theorem witness_KeyWaitTakesTheLeastKeyOrRepeats :
    ((0x8000 : BitVec 16).getLsbD 15 = true ∧ ∀ j, j < 15 → (0x8000 : BitVec 16).getLsbD j = false) ∧
    (∀ j, j < 16 → base.KEYS.getLsbD j = false) ∧ (mem 0x200 [0xFF, 0x0A] base).wordAtPc = wordXKK 0xF 15 0x0A := by decide
theorem witness_TimersAreReadAndWritten :
    (mem 0x200 [0xFF, 0x15] base).wordAtPc = wordXKK 0xF 15 0x15 ∧ (mem 0x200 [0xFF, 0x18] base).wordAtPc = wordXKK 0xF 15 0x18 ∧
    (base.CYC + 1 < 2 ∧ base.CYC + 1 = 1) ∧ (14 : Reg) ≠ VF ∧
    ∃ t, exec .cls base = .next t ∧ (∀ z, Instr.cls ≠ .ldDTVx z) ∧ ∀ z, Instr.cls ≠ .ldSTVx z :=
  ⟨by decide, by decide, by decide, by decide, _, rfl, by decide⟩

/-- The frames: each kind of instruction completes in a state of the invariant, those that store at the top of memory. -/
theorem witness_frames :
    (∃ t, exec (.addReg 1 2) base = .next t) ∧ (∃ t, exec (.store 0) full = .next t) ∧ (∃ t, exec .ret full = .next t) ∧
    (∃ t, exec (.call 0xFFF) base = .next t) ∧ (∃ t, exec (.drw 0 1 1) full = .next t) ∧ (∃ t, exec (.ldI 0) base = .next t) ∧
    bytesStored (.addReg 1 2) = 0 :=
  ⟨⟨_, rfl⟩, ⟨_, rfl⟩, ⟨_, rfl⟩, ⟨_, rfl⟩, ⟨_, rfl⟩, ⟨_, rfl⟩, rfl⟩
theorem witness_OnlyFiveInstructionsOverrideTheAdvance :
    (∃ t, exec (.ldVxK 0) { base with KEYS := 1 } = .next t ∧ ({ base with KEYS := 1 } : State).KEYS ≠ 0) ∧
    (∃ t, exec (.seImm 0 0) base = .next t ∧ t.pc = base.pc + 2 + 2) ∧
    (∃ t, exec (.jp 0xFFF) base = .next t) ∧ (∃ t, exec (.call 0xFFF) base = .next t) ∧
    (∃ t, exec (.jpV0 0xFFF) base = .next t) ∧ (∃ t, full.SP.val = 15 + 1 ∧ exec .ret full = .next t) ∧
    (∃ t, base.KEYS = 0 ∧ exec (.ldVxK 0) base = .next t) ∧
    (∃ r t, decodeWord 0x0000 = .error r ∧ runWord 0x0000 base = .next t) :=
  ⟨⟨_, rfl, by decide⟩, ⟨_, rfl, rfl⟩, ⟨_, rfl⟩, ⟨_, rfl⟩, ⟨_, rfl⟩, ⟨_, rfl, rfl⟩, ⟨_, rfl, rfl⟩, ⟨_, _, rfl, rfl⟩⟩
theorem witness_inputs_not_read :
    (∀ x, Instr.cls ≠ .skp x) ∧ (∀ x, Instr.cls ≠ .sknp x) ∧ (∀ x, Instr.cls ≠ .ldVxK x) ∧
    (∀ x kk, Instr.cls ≠ .rnd x kk) ∧ ∀ x, Instr.cls ≠ .ldSTVx x := by
  simp
/-- Two states that do differ, in the entry just above the live ones. -/
theorem witness_DeadStackEntriesAreNeverRead :
    SameButDeadStack { base with SP := 1 } { base with SP := 1, STACK := base.STACK.set 1 0x345 } ∧
    base.STACK ≠ base.STACK.set 1 0x345 := by
  refine ⟨⟨rfl, fun j h hj => ?_⟩, by decide⟩
  have hj : j < 1 := hj
  show (base.STACK.set 1 0x345)[j] = base.STACK[j]
  rw [Vector.getElem_set_ne _ _ (by omega)]

end Sys2Proof.Tests
end

section
/-! PROOFS. Fetch and the bounds of memory (20_memory.md): what a one-cell read, a fetch and a `STEP` answer on each
side of the bound. -/

namespace Sys2Proof.Machine

/-! ### Reading and fetching on each side of the bound -/

/-- A one-cell read inside memory gives that cell (R56). -/
theorem memRead_one_of_le {a : Nat} (m : Memory) (h : a ≤ 4095) : memRead m a 1 = .ok [m.read a] := by
  rcases memRead_eq m a 1 with ⟨e, -⟩ | ⟨-, -, hout⟩
  · exact e
  · omega

/-- A one-cell read past memory fails at that cell (R56, R58). -/
theorem memRead_one_of_ge {a : Nat} (m : Memory) (h : 4096 ≤ a) : memRead m a 1 = .error a := by
  rcases memRead_eq m a 1 with ⟨-, hin⟩ | ⟨e, -⟩
  · omega
  · rw [e, Nat.max_eq_left h]

/-- Where both cells are in memory a fetch gives the word at `pc` (R59). -/
theorem fetch_of_le {s : State} (h : s.pc.toNat ≤ 4094) : s.fetch = .ok s.wordAtPc := by
  rcases fetch_eq s with ⟨-, e⟩ | ⟨hge, -⟩
  · exact e
  · omega

/-- Where a cell is past memory a fetch fails at the first such cell (R59). -/
theorem fetch_of_ge {s : State} (h : 4095 ≤ s.pc.toNat) : s.fetch = .error (max s.pc.toNat 4096) := by
  rcases fetch_eq s with ⟨hle, -⟩ | ⟨-, e⟩
  · omega
  · exact e

/-! ### A cycle that cannot fetch -/

/-- A running core that cannot fetch stops with OutOfBounds (R59, R230). -/
theorem cycle_of_ge {s : State} (period : Nat) (hF : s.FAULT = none) (h : 4095 ≤ s.pc.toNat) :
    cycle period s = .fault (.outOfBounds s.pc (max s.pc.toNat 4096)) := by
  rcases cycle_eq period s with ⟨r, hr, -⟩ | ⟨-, -, e⟩ | ⟨-, hle, -⟩
  · rw [hF] at hr
    exact nomatch hr
  · exact e
  · omega

/-- A fatal error of a running core sets the latch to its record and changes nothing else (R33, R235). -/
theorem afterStep_of_fault {s : State} {period : Nat} {f : Fault} (hF : s.FAULT = none)
    (h : cycle period s = .fault f) : afterStep period s = { s with FAULT := some f.record } := by
  simp only [afterStep, h, State.latch, hF]

/-- Settles O9: a fetch reads two cells, and the bound of each read splits at `pc` 4094, 4095 and 4096. -/
theorem fetchIsBigEndianAndBounded : Obligations.FetchIsBigEndianAndBounded := by
  unfold Obligations.FetchIsBigEndianAndBounded
  intro s
  refine ⟨fun hle => fetch_of_le hle, fun hge => ⟨⟨_, fetch_of_ge hge⟩, fun hF period => ?_⟩, fun hlast => ?_,
    fun hge => ⟨_, memRead_one_of_ge _ hge⟩⟩
  · have hstop := cycle_of_ge period hF hge
    exact ⟨⟨_, hstop⟩, _, afterStep_of_fault hF hstop⟩
  · rw [hlast]
    exact ⟨memRead_one_of_le _ le_rfl, _, memRead_one_of_ge _ le_rfl⟩

end Sys2Proof.Machine
end

section
/-! PROOFS. The instruction cycle (40_cycle.md): a faulted core (R107), a word that matches no row (R106), and which
instructions override the default advance (R105). -/

namespace Sys2Proof

/-! ### A word is put together again from its fields -/

section Fields
variable {w : Word} {n1 n : Nibble} {kk : Byte}

theorem wordNNN_of_fields (h1 : fieldN1 w = n1) : wordNNN n1 (fieldNNN w) = w := by
  subst h1
  apply BitVec.eq_of_toNat_eq
  rw [wordNNN_toNat, fieldN1_toNat, fieldNNN_toNat]
  omega

theorem wordXKK_of_fields (h1 : fieldN1 w = n1) (hkk : fieldKK w = kk) : wordXKK n1 (fieldX w) kk = w := by
  subst h1 hkk
  apply BitVec.eq_of_toNat_eq
  rw [wordXKK_toNat, fieldN1_toNat, fieldX_val, fieldKK_toNat]
  omega

theorem wordXYN_of_fields (h1 : fieldN1 w = n1) (hn : fieldN4 w = n) :
    wordXYN n1 (fieldX w) (fieldY w) n = w := by
  subst h1 hn
  apply BitVec.eq_of_toNat_eq
  rw [wordXYN_toNat, fieldN1_toNat, fieldX_val, fieldY_val, fieldN4_toNat]
  omega

end Fields

/-! ### A decoded word is the word of its instruction, and matches its row -/

section Decoded
variable {w : Word} {i : Instr}

theorem encode_of_decodeGroup8 (h1 : fieldN1 w = 0x8) (h : decodeGroup8 w = .ok i) : encode i = w := by
  unfold decodeGroup8 at h
  split at h <;> cases h
  all_goals exact wordXYN_of_fields h1 ‹_›

theorem encode_of_decodeGroupF (h1 : fieldN1 w = 0xF) (h : decodeGroupF w = .ok i) : encode i = w := by
  unfold decodeGroupF at h
  split at h <;> cases h
  all_goals exact wordXKK_of_fields h1 ‹_›

/-- The decoder drops no bit: each group of R84 keeps the digits it matched. -/
theorem encode_of_decodeWord (h : decodeWord w = .ok i) : encode i = w := by
  unfold decodeWord at h
  split at h
  next =>
    split at h
    next hw => cases h; exact hw.symm
    next =>
      split at h
      next hw => cases h; exact hw.symm
      next => cases h
  next h1 => cases h; exact wordNNN_of_fields h1
  next h1 => cases h; exact wordNNN_of_fields h1
  next h1 => cases h; exact wordXKK_of_fields h1 rfl
  next h1 => cases h; exact wordXKK_of_fields h1 rfl
  next h1 =>
    split at h
    next hn => cases h; exact wordXYN_of_fields h1 hn
    next => cases h
  next h1 => cases h; exact wordXKK_of_fields h1 rfl
  next h1 => cases h; exact wordXKK_of_fields h1 rfl
  next h1 => exact encode_of_decodeGroup8 h1 h
  next h1 =>
    split at h
    next hn => cases h; exact wordXYN_of_fields h1 hn
    next => cases h
  next h1 => cases h; exact wordNNN_of_fields h1
  next h1 => cases h; exact wordNNN_of_fields h1
  next h1 => cases h; exact wordXKK_of_fields h1 rfl
  next h1 => cases h; exact wordXYN_of_fields h1 (by simp)
  next h1 =>
    split at h
    next hkk => cases h; exact wordXKK_of_fields h1 hkk
    next =>
      split at h
      next hkk => cases h; exact wordXKK_of_fields h1 hkk
      next => cases h
  next h1 => exact encode_of_decodeGroupF h1 h
  next => cases h

end Decoded

open Laws in
/-- The word of an instruction selects the row of the instruction (R84). -/
theorem row_matches_encode : ∀ i : Instr, i.row.Matches (encode i)
  | .cls => EncodeMatchesRow.cls
  | .ret => EncodeMatchesRow.ret
  | .jp a => EncodeMatchesRow.jp a
  | .call a => EncodeMatchesRow.call a
  | .seImm x kk => EncodeMatchesRow.seImm x kk
  | .sneImm x kk => EncodeMatchesRow.sneImm x kk
  | .seReg x y => EncodeMatchesRow.seReg x y
  | .ldImm x kk => EncodeMatchesRow.ldImm x kk
  | .addImm x kk => EncodeMatchesRow.addImm x kk
  | .ldReg x y => EncodeMatchesRow.ldReg x y
  | .orReg x y => EncodeMatchesRow.orReg x y
  | .andReg x y => EncodeMatchesRow.andReg x y
  | .xorReg x y => EncodeMatchesRow.xorReg x y
  | .addReg x y => EncodeMatchesRow.addReg x y
  | .subReg x y => EncodeMatchesRow.subReg x y
  | .shr x y => EncodeMatchesRow.shr x y
  | .subnReg x y => EncodeMatchesRow.subnReg x y
  | .shl x y => EncodeMatchesRow.shl x y
  | .sneReg x y => EncodeMatchesRow.sneReg x y
  | .ldI a => EncodeMatchesRow.ldI a
  | .jpV0 a => EncodeMatchesRow.jpV0 a
  | .rnd x kk => EncodeMatchesRow.rnd x kk
  | .drw x y n => EncodeMatchesRow.drw x y n
  | .skp x => EncodeMatchesRow.skp x
  | .sknp x => EncodeMatchesRow.sknp x
  | .ldVxDT x => EncodeMatchesRow.ldVxDT x
  | .ldVxK x => EncodeMatchesRow.ldVxK x
  | .ldDTVx x => EncodeMatchesRow.ldDTVx x
  | .ldSTVx x => EncodeMatchesRow.ldSTVx x
  | .addI x => EncodeMatchesRow.addI x
  | .ldF x => EncodeMatchesRow.ldF x
  | .ldB x => EncodeMatchesRow.ldB x
  | .store x => EncodeMatchesRow.store x
  | .load x => EncodeMatchesRow.load x

/-- The row of every instruction stands in the table. -/
theorem row_mem_opcodeTable (i : Instr) : i.row ∈ opcodeTable := by
  cases i <;> simp [opcodeTable, Instr.row]

/-- A word the decoder accepts matches the row of its instruction (R84). -/
theorem row_matches_of_decodeWord {w : Word} {i : Instr} (h : decodeWord w = .ok i) : i.row.Matches w := by
  have hrow := row_matches_encode i
  rwa [encode_of_decodeWord h] at hrow

end Sys2Proof

namespace Sys2Proof.Machine

/-! ### A faulted core -/

/-- A core whose latch is set answers a step with the latched record (R107). -/
theorem cycle_of_faulted {s : State} {r : FaultRecord} (period : Nat) (hF : s.FAULT = some r) :
    cycle period s = .fault (.stopped r) := by
  simp only [cycle, hF]

/-- The latch is never written again once it is set (R33). -/
theorem latch_of_faulted {s : State} {r : FaultRecord} (f : Fault) (hF : s.FAULT = some r) : s.latch f = s := by
  simp only [State.latch, hF]
  rw [← hF]

/-- Settles O10: the step of a faulted core is a stop, and the latch keeps its record through it. -/
theorem faultedCoreTakesNoStep : Obligations.FaultedCoreTakesNoStep := by
  unfold Obligations.FaultedCoreTakesNoStep
  intro period s r hF
  have hstop := cycle_of_faulted period hF
  refine ⟨fun t ht => ?_, ?_⟩
  · rw [hstop] at ht
    exact nomatch ht
  · simp only [afterStep, hstop]
    exact latch_of_faulted _ hF

/-! ### A word that matches no row -/

/-- A rejected word runs as the default advance and nothing else (R106). -/
theorem runWord_of_rejected {w : Word} {r : Reject} (s : State) (h : decodeWord w = .error r) :
    runWord w s = .next s.advance := by
  simp only [runWord, h, execUnmatched]

/-- A word that matches no row is rejected: a decoded one would match the row of its instruction. -/
theorem runWord_of_unmatched {w : Word} (s : State) (h : ∀ r ∈ opcodeTable, ¬ r.Matches w) :
    runWord w s = .next s.advance := by
  cases hd : decodeWord w with
  | ok i => exact absurd (row_matches_of_decodeWord hd) (h _ (row_mem_opcodeTable i))
  | error r => exact runWord_of_rejected s hd

/-- A running core that can fetch runs the word at `pc` (R100). -/
theorem cycle_of_le {s : State} (period : Nat) (hF : s.FAULT = none) (h : s.pc.toNat ≤ 4094) :
    cycle period s = finishCycle period (runWord s.wordAtPc s) := by
  rcases cycle_eq period s with ⟨r, hr, -⟩ | ⟨-, hge, -⟩ | ⟨-, -, e⟩
  · rw [hF] at hr
    exact nomatch hr
  · omega
  · exact e

/-- The end of a cycle counts it for `s` when the executed word left the batch counter and the timers as in `s`
(R108, R223). -/
theorem cycleCounted_finish {s u : State} (period : Nat) (hC : u.CYC = s.CYC) (hDT : u.DT = s.DT) (hST : u.ST = s.ST) :
    CycleCounted period s (u.countCycle period).sampleInputs := by
  unfold CycleCounted
  simp only [sampleInputs_CYC, sampleInputs_DT, sampleInputs_ST, countCycle_CYC, countCycle_DT, countCycle_ST, hC, hDT,
    hST]
  constructor
  · intro hlt
    simp only [if_neg (Nat.not_le.mpr hlt), and_self]
  · intro hfull
    simp only [if_pos (Nat.le_of_eq hfull.symm), countDown_toNat, and_self]

/-- Settles O8: no row matches, so the decoder rejects the word and the cycle runs the default advance. -/
theorem unmatchedWordIsANoOp : Obligations.UnmatchedWordIsANoOp := by
  unfold Obligations.UnmatchedWordIsANoOp
  intro period s hF hle hno
  refine ⟨(s.advance.countCycle period).sampleInputs, ?_, by simp, ?_, by simpa using hF,
    cycleCounted_finish period rfl rfl rfl⟩
  · rw [cycle_of_le period hF hle, runWord_of_unmatched s hno]
    rfl
  · simp [SameProgramState]

/-! ### The keys and the wrapped sum -/

/-- The scan finds no key exactly when none of the keys it visits is held (R212). -/
theorem firstKeyFrom_eq_none_iff (keys : BitVec 16) (n k : Nat) :
    firstKeyFrom keys n k = none ↔ ∀ j, k ≤ j → j < k + n → keys.getLsbD j = false := by
  induction n generalizing k with
  | zero => exact ⟨fun _ j h1 h2 => by omega, fun _ => rfl⟩
  | succ n ih =>
    unfold firstKeyFrom
    by_cases hk : keys.getLsbD k = true
    · simp only [if_pos hk, reduceCtorEq, false_iff]
      intro hall
      rw [hall k le_rfl (by omega)] at hk
      exact nomatch hk
    · rw [if_neg hk, ih]
      constructor
      · intro hrest j h1 h2
        rcases Nat.eq_or_lt_of_le h1 with rfl | h1
        · exact Bool.eq_false_of_not_eq_true hk
        · exact hrest j h1 (by omega)
      · exact fun hall j h1 h2 => hall j (by omega) (by omega)

/-- `Fx0A` finds no key exactly when the snapshot is 0 (R212). -/
theorem firstKey_eq_none_iff (s : State) : s.firstKey = none ↔ s.KEYS = 0 := by
  unfold State.firstKey
  rw [firstKeyFrom_eq_none_iff]
  constructor
  · intro hall
    apply BitVec.eq_of_getLsbD_eq
    intro j hj
    rw [hall j (by omega) (by omega)]
    simp
  · intro h0 j _ _
    simp [h0]

theorem wrap12_toNat (base : Word) (offset : Byte) :
    (wrap12 base offset).toNat = (base.toNat + offset.toNat) % 4096 := by
  unfold wrap12
  rw [BitVec.toNat_ofNat]
  omega

theorem addressImm_toNat (nnn : Addr12) : (addressImm nnn).toNat = nnn.toNat := by
  unfold addressImm
  rw [BitVec.toNat_setWidth]
  omega

/-! ### Where an instruction leaves `pc` -/

section NextPc
variable {s t : State}

/-- A skip moves `pc` by 2, or by its own 2 and the default advance (R126, R130). -/
theorem pc_of_skip {c : Bool} (h : (.next (s.skipIf c).advance : Result) = .next t) :
    t.pc = s.pc + 2 ∨ t.pc = s.pc + 2 + 2 := by
  obtain rfl := Host.Outcome.next.inj h
  rw [advance_pc, skipIf_pc]
  cases c with
  | false => exact .inl rfl
  | true => exact .inr rfl

theorem pc_of_store {bytes : List Byte} (h : s.storeAtI bytes = .next t) : t.pc = s.pc + 2 := by
  obtain ⟨rfl, -⟩ := storeAtI_next h
  rfl

theorem pc_of_load {x : Reg} (h : exec (.load x) s = .next t) : t.pc = s.pc + 2 := by
  obtain ⟨rfl, -⟩ := execLoad_next h
  rfl

theorem pc_of_drw {x y : Reg} {n : Nat} (h : exec (.drw x y n) s = .next t) : t.pc = s.pc + 2 := by
  obtain ⟨drawn, -, rfl, -⟩ := execDrw_next h
  rfl

theorem pc_of_jp {nnn : Addr12} (h : exec (.jp nnn) s = .next t) : t.pc = addressImm nnn := by
  obtain rfl := Host.Outcome.next.inj h
  rfl

theorem pc_of_call {nnn : Addr12} (h : exec (.call nnn) s = .next t) : t.pc = addressImm nnn := by
  obtain ⟨hs, rfl⟩ := execCall_next h
  rfl

theorem pc_of_jpV0 {nnn : Addr12} (h : exec (.jpV0 nnn) s = .next t) :
    t.pc = wrap12 (addressImm nnn) (s.reg 0) := by
  obtain rfl := Host.Outcome.next.inj h
  rfl

/-- A return goes to the top live entry (R122). -/
theorem pc_of_ret {j : Nat} (hj : j < 16) (hSP : s.SP.val = j + 1) (h : exec .ret s = .next t) :
    t.pc = s.STACK[j] := by
  obtain ⟨hs, -, rfl⟩ := execRet_next h
  simp only [jumpTo_pc, hSP, Nat.add_sub_cancel]

/-- `Fx0A` with no key held repeats (R212). -/
theorem pc_of_ldVxK_waiting {x : Reg} (hK : s.KEYS = 0) (h : exec (.ldVxK x) s = .next t) : t.pc = s.pc := by
  rw [exec_ldVxK, execLdVxK, (firstKey_eq_none_iff s).mpr hK] at h
  obtain rfl := Host.Outcome.next.inj h
  rfl

/-- `Fx0A` with a key held advances (R212). -/
theorem pc_of_ldVxK_pressed {x : Reg} (hK : s.KEYS ≠ 0) (h : exec (.ldVxK x) s = .next t) : t.pc = s.pc + 2 := by
  obtain ⟨k, hk⟩ := Option.ne_none_iff_exists'.mp (mt (firstKey_eq_none_iff s).mp hK)
  rw [exec_ldVxK, execLdVxK, hk] at h
  obtain rfl := Host.Outcome.next.inj h
  rfl

/-- Every instruction but the five of R105 takes the default advance; only the six skips add to it. -/
theorem pc_of_not_override {i : Instr} (h : exec i s = .next t) (hret : i ≠ .ret) (hjp : ∀ a, i ≠ .jp a)
    (hcall : ∀ a, i ≠ .call a) (hjpV0 : ∀ a, i ≠ .jpV0 a) (hkey : (∀ x, i ≠ .ldVxK x) ∨ s.KEYS ≠ 0) :
    t.pc = s.pc + 2 ∨
    (t.pc = s.pc + 2 + 2 ∧ ((∃ x kk, i = .seImm x kk) ∨ (∃ x kk, i = .sneImm x kk) ∨ (∃ x y, i = .seReg x y) ∨
      (∃ x y, i = .sneReg x y) ∨ (∃ x, i = .skp x) ∨ (∃ x, i = .sknp x))) := by
  cases i with
  | ret => exact absurd rfl hret
  | jp a => exact absurd rfl (hjp a)
  | call a => exact absurd rfl (hcall a)
  | jpV0 a => exact absurd rfl (hjpV0 a)
  | ldVxK x =>
    have hpressed : s.KEYS ≠ 0 := hkey.resolve_left fun hne => hne x rfl
    exact .inl (pc_of_ldVxK_pressed hpressed h)
  | seImm _ _ | sneImm _ _ | seReg _ _ | sneReg _ _ | skp _ | sknp _ =>
    exact (pc_of_skip h).imp_right fun hpc => ⟨hpc, by simp⟩
  | drw _ _ _ => exact .inl (pc_of_drw h)
  | load _ => exact .inl (pc_of_load h)
  | ldB _ | store _ => exact .inl (pc_of_store h)
  | cls | ldI _ | addI _ | ldF _ | ldVxDT _ | ldDTVx _ | ldSTVx _ | rnd _ _ | ldImm _ _ | addImm _ _ | ldReg _ _
  | orReg _ _ | andReg _ _ | xorReg _ _ | addReg _ _ | subReg _ _ | shr _ _ | subnReg _ _ | shl _ _ =>
    obtain rfl := Host.Outcome.next.inj h
    exact .inl rfl

end NextPc

/-- Settles O54: the `pc` of each overriding instruction, and the default advance of all the others and of a rejected
word. -/
theorem onlyFiveInstructionsOverrideTheAdvance : Obligations.OnlyFiveInstructionsOverrideTheAdvance := by
  unfold Obligations.OnlyFiveInstructionsOverrideTheAdvance
  intro s t
  refine ⟨fun _ => pc_of_not_override, fun _ => pc_of_jp, fun _ => pc_of_call, fun a h => ?_,
    fun _ => pc_of_ret, fun _ => pc_of_ldVxK_waiting, fun w r hd h => ?_⟩
  · rw [pc_of_jpV0 h, wrap12_toNat, addressImm_toNat]
  · rw [runWord_of_rejected s hd] at h
    obtain rfl := Host.Outcome.next.inj h
    exact advance_pc s

end Sys2Proof.Machine
end

section
/-! PROOFS. Control transfer (41_control_flow.md): jump (R123), call (R124), indexed jump (R125) and the skips on an
immediate (R126, R127). -/

namespace Sys2Proof

/-! ### The words of the control instructions (R84) -/

section Words
variable (x : Reg) (kk : Byte) (nnn : Addr12)

theorem decodeWord_jp : decodeWord (wordNNN 0x1 nnn) = .ok (.jp nnn) := by
  unfold decodeWord
  rw [fieldN1_wordNNN, fieldNNN_wordNNN]
  rfl

theorem decodeWord_call : decodeWord (wordNNN 0x2 nnn) = .ok (.call nnn) := by
  unfold decodeWord
  rw [fieldN1_wordNNN, fieldNNN_wordNNN]
  rfl

theorem decodeWord_jpV0 : decodeWord (wordNNN 0xB nnn) = .ok (.jpV0 nnn) := by
  unfold decodeWord
  rw [fieldN1_wordNNN, fieldNNN_wordNNN]
  rfl

theorem decodeWord_seImm : decodeWord (wordXKK 0x3 x kk) = .ok (.seImm x kk) := by
  unfold decodeWord
  rw [fieldN1_wordXKK, fieldX_wordXKK, fieldKK_wordXKK]
  rfl

theorem decodeWord_sneImm : decodeWord (wordXKK 0x4 x kk) = .ok (.sneImm x kk) := by
  unfold decodeWord
  rw [fieldN1_wordXKK, fieldX_wordXKK, fieldKK_wordXKK]
  rfl

end Words

end Sys2Proof

namespace Sys2Proof.Machine

/-! ### A decoded word in the cycle -/

/-- A decoded word runs as its instruction (R102, R103). -/
theorem runWord_of_decoded {w : Word} {i : Instr} (s : State) (h : decodeWord w = .ok i) : runWord w s = exec i s := by
  simp only [runWord, h]

/-- A running core whose instruction raises a fatal error latches it and changes nothing else (R108, R235). -/
theorem afterStep_of_exec_fault {s : State} {i : Instr} {f : Fault} (period : Nat) (hF : s.FAULT = none)
    (hle : s.pc.toNat ≤ 4094) (hd : decodeWord s.wordAtPc = .ok i) (h : exec i s = .fault f) :
    afterStep period s = { s with FAULT := some f.record } := by
  have hstop : cycle period s = .fault f := by
    rw [cycle_of_le period hF hle, runWord_of_decoded s hd, h]
    rfl
  exact afterStep_of_fault hF hstop

/-! ### Jumps -/

/-- A jump to where the core already is changes nothing (R123). -/
theorem jumpTo_eq_self {s : State} {w : Word} (h : w = s.pc) : s.jumpTo w = s := by
  subst h
  rfl

/-- Settles O23: the target is the immediate as a number, and one of 0xFFF leaves no second byte to fetch. -/
theorem jumpGoesToTheAddress : Obligations.JumpGoesToTheAddress := by
  unfold Obligations.JumpGoesToTheAddress
  intro s nnn
  refine ⟨decodeWord_jp nnn, s.jumpTo (addressImm nnn), rfl, addressImm_toNat nnn, rfl, fun hself => ?_,
    fun hlast hF period => ?_⟩
  · exact jumpTo_eq_self (BitVec.eq_of_toNat_eq ((addressImm_toNat nnn).trans hself))
  · have hpc : 4095 ≤ (s.jumpTo (addressImm nnn)).pc.toNat := by
      rw [jumpTo_pc, addressImm_toNat, hlast]
      decide
    exact ⟨_, cycle_of_ge period hF hpc⟩

/-- Settles O26: the jump is to the wrapped sum of the immediate and `V[0]`. -/
theorem indexedJumpAddsV0 : Obligations.IndexedJumpAddsV0 := by
  unfold Obligations.IndexedJumpAddsV0
  intro s nnn
  refine ⟨decodeWord_jpV0 nnn, s.jumpTo (wrap12 (addressImm nnn) (s.reg 0)), rfl, ?_, rfl⟩
  rw [jumpTo_pc, wrap12_toNat, addressImm_toNat]

/-! ### Call -/

section Call
variable {s : State} (nnn : Addr12)

/-- A call with a free entry pushes the address after it and jumps (R124). -/
theorem exec_call_of_lt (h : s.SP.val < Config.stackDepth) : exec (.call nnn) s =
    .next (({ s with
               STACK := s.STACK.set s.SP.val s.returnAddress h
               SP := ⟨s.SP.val + 1, Nat.succ_lt_succ h⟩ } : State).jumpTo (addressImm nnn)) := by
  rw [exec_call, execCall]
  rcases push_eq s s.returnAddress with ⟨_, e⟩ | ⟨hfull, -⟩
  · rw [e]
  · exact absurd (hfull ▸ h : 16 < Config.stackDepth) (by decide)

/-- A call with all entries in use stops (R120, R124). -/
theorem exec_call_of_full (h : s.SP.val = 16) : exec (.call nnn) s = .fault (.stackOverflow s.pc) := by
  rw [exec_call, execCall]
  rcases push_eq s s.returnAddress with ⟨hfree, -⟩ | ⟨-, e⟩
  · exact absurd (h ▸ hfree : 16 < Config.stackDepth) (by decide)
  · rw [e]

end Call

/-- Settles O24: a push writes the entry at `SP` alone, and one on a full stack is latched as StackOverflow. -/
theorem callPushesTheReturnAddress : Obligations.CallPushesTheReturnAddress := by
  unfold Obligations.CallPushesTheReturnAddress
  intro s nnn
  refine ⟨decodeWord_call nnn, fun hfree => ?_, fun hfull => ?_⟩
  · refine ⟨_, exec_call_of_lt nnn hfree, ?_, rfl, addressImm_toNat nnn, rfl, fun j hj hne => ?_⟩
    · exact Vector.getElem_set_self hfree
    · exact Vector.getElem_set_ne hfree hj hne.symm
  · have hstop := exec_call_of_full nnn hfull
    refine ⟨hstop, fun hF hle hw period => ⟨_, afterStep_of_exec_fault period hF hle ?_ hstop⟩⟩
    rw [hw, decodeWord_call]

/-! ### Skips -/

/-- A skip comes on top of the default advance (R126, R130). -/
theorem skipIf_advance_pc (s : State) (c : Bool) :
    (s.skipIf c).advance.pc = if c then s.pc + 4 else s.pc + 2 := by
  rw [advance_pc, skipIf_pc]
  cases c with
  | false => rfl
  | true => exact BitVec.add_assoc s.pc 2 2

/-- Settles O27: the two forms skip under opposite conditions, and bytes are equal exactly when their values are. -/
theorem skipComparesWithTheImmediate : Obligations.SkipComparesWithTheImmediate := by
  unfold Obligations.SkipComparesWithTheImmediate
  intro s x kk
  refine ⟨decodeWord_seImm x kk, decodeWord_sneImm x kk, ⟨(s.skipIf (s.reg x = kk)).advance, rfl, ?_, ?_⟩,
    ⟨(s.skipIf (s.reg x ≠ kk)).advance, rfl, ?_, ?_⟩⟩
  · rw [advance_V, skipIf_V]
  · simp only [skipIf_advance_pc, decide_eq_true_eq, BitVec.toNat_inj]
  · rw [advance_V, skipIf_V]
  · simp only [skipIf_advance_pc, decide_eq_true_eq, BitVec.toNat_inj, ne_eq, ite_not]

end Sys2Proof.Machine
end

section
/-! PROOFS. Registers and the ALU (42_alu.md): the immediate forms (R140, R141), copy and the bitwise forms
(R142 to R145) and the masked random draw (R151). None of them writes a flag. -/

namespace Sys2Proof

/-! ### The words of these instructions (R84) -/

section Words
variable (x y : Reg) (kk : Byte) (n : Nibble)

theorem decodeWord_ldImm : decodeWord (wordXKK 0x6 x kk) = .ok (.ldImm x kk) := by
  unfold decodeWord
  rw [fieldN1_wordXKK, fieldX_wordXKK, fieldKK_wordXKK]
  rfl

theorem decodeWord_addImm : decodeWord (wordXKK 0x7 x kk) = .ok (.addImm x kk) := by
  unfold decodeWord
  rw [fieldN1_wordXKK, fieldX_wordXKK, fieldKK_wordXKK]
  rfl

theorem decodeWord_rnd : decodeWord (wordXKK 0xC x kk) = .ok (.rnd x kk) := by
  unfold decodeWord
  rw [fieldN1_wordXKK, fieldX_wordXKK, fieldKK_wordXKK]
  rfl

/-- A word of group 8 is told apart by its last digit. -/
theorem decodeWord_group8 : decodeWord (wordXYN 0x8 x y n) = decodeGroup8 (wordXYN 0x8 x y n) := by
  unfold decodeWord
  rw [fieldN1_wordXYN]
  rfl

theorem decodeWord_ldReg : decodeWord (wordXYN 0x8 x y 0x0) = .ok (.ldReg x y) := by
  rw [decodeWord_group8, decodeGroup8, fieldN4_wordXYN, fieldX_wordXYN, fieldY_wordXYN]
  rfl

theorem decodeWord_orReg : decodeWord (wordXYN 0x8 x y 0x1) = .ok (.orReg x y) := by
  rw [decodeWord_group8, decodeGroup8, fieldN4_wordXYN, fieldX_wordXYN, fieldY_wordXYN]
  rfl

theorem decodeWord_andReg : decodeWord (wordXYN 0x8 x y 0x2) = .ok (.andReg x y) := by
  rw [decodeWord_group8, decodeGroup8, fieldN4_wordXYN, fieldX_wordXYN, fieldY_wordXYN]
  rfl

theorem decodeWord_xorReg : decodeWord (wordXYN 0x8 x y 0x3) = .ok (.xorReg x y) := by
  rw [decodeWord_group8, decodeGroup8, fieldN4_wordXYN, fieldX_wordXYN, fieldY_wordXYN]
  rfl

end Words

/-- A byte with no bit outside the mask is its own masked value (R151). -/
theorem and_mask_of_submask {r kk : Byte} (h : r &&& ~~~kk = 0) : r &&& kk = r :=
  calc r &&& kk = (r &&& kk) ||| (r &&& ~~~kk) := by rw [h]; exact BitVec.or_zero.symm
    _ = r &&& (kk ||| ~~~kk) := BitVec.and_or_distrib_left.symm
    _ = r := by rw [BitVec.or_not_self, BitVec.and_allOnes]

/-- A masked byte has no bit outside the mask (R151). -/
theorem masked_and_not_mask (r kk : Byte) : (r &&& kk) &&& ~~~kk = 0 := by
  rw [BitVec.and_assoc, BitVec.and_not_self]
  exact BitVec.and_zero

end Sys2Proof

namespace Sys2Proof.Machine

/-! ### One register written, then the default advance -/

section SetRegAdvance
variable (s : State) (x : Reg) (b : Byte)

theorem reg_setReg_advance_self : (s.setReg x b).advance.reg x = b := by
  rw [advance_reg, reg_setReg_self]

/-- A write of `V[x]` leaves `VF` alone unless `VF` is the destination (R16). -/
theorem reg_VF_setReg_advance (hx : x ≠ VF) : (s.setReg x b).advance.reg VF = s.reg VF := by
  rw [advance_reg, reg_setReg_ne s x VF b hx.symm]

end SetRegAdvance

/-- Settles O29: both forms write the one register `V[x]`, and a byte sum is the sum of the values modulo 256. -/
theorem immediateLoadAndAdd : Obligations.ImmediateLoadAndAdd := by
  unfold Obligations.ImmediateLoadAndAdd
  intro s x kk
  refine ⟨decodeWord_ldImm x kk, decodeWord_addImm x kk, ?_, ?_⟩
  · exact ⟨_, exec_ldImm s x kk, reg_setReg_advance_self s x _, rfl, reg_VF_setReg_advance s x _⟩
  · refine ⟨_, exec_addImm s x kk, ?_, rfl, reg_VF_setReg_advance s x _⟩
    rw [reg_setReg_advance_self, BitVec.toNat_add]

/-- Settles O30: each form writes the one register `V[x]`, and the bitwise operations work bit by bit. -/
theorem registerCopyAndBitwise : Obligations.RegisterCopyAndBitwise := by
  unfold Obligations.RegisterCopyAndBitwise
  intro s x y
  refine ⟨decodeWord_ldReg x y, decodeWord_orReg x y, decodeWord_andReg x y, decodeWord_xorReg x y, ?_, ?_, ?_, ?_⟩
  · exact ⟨_, exec_ldReg s x y, reg_setReg_advance_self s x _, rfl, reg_VF_setReg_advance s x _⟩
  · refine ⟨_, exec_orReg s x y, fun j => ?_, rfl, reg_VF_setReg_advance s x _⟩
    rw [reg_setReg_advance_self, BitVec.getLsbD_or]
  · refine ⟨_, exec_andReg s x y, fun j => ?_, rfl, reg_VF_setReg_advance s x _⟩
    rw [reg_setReg_advance_self, BitVec.getLsbD_and]
  · refine ⟨_, exec_xorReg s x y, fun j => ?_, rfl, reg_VF_setReg_advance s x _⟩
    rw [reg_setReg_advance_self, BitVec.getLsbD_xor]

/-- Settles O34: a value inside the mask is reached by drawing that value itself. -/
theorem randomDrawIsMasked : Obligations.RandomDrawIsMasked := by
  unfold Obligations.RandomDrawIsMasked
  intro s x kk
  refine ⟨decodeWord_rnd x kk, ?_, fun r hr => ?_⟩
  · refine ⟨_, exec_rnd s x kk, reg_setReg_advance_self s x _, ?_, rfl, reg_VF_setReg_advance s x _⟩
    rw [reg_setReg_advance_self, masked_and_not_mask]
  · refine ⟨r, _, exec_rnd _ x kk, ?_⟩
    rw [reg_setReg_advance_self, and_mask_of_submask hr]

end Sys2Proof.Machine
end

section
/-! PROOFS. Index register and memory (43_index_memory.md): the three writes of `I` (R170, R171, R172). -/

namespace Sys2Proof

/-! ### The words of these instructions (R84) -/

section Words
variable (x : Reg) (kk : Byte) (nnn : Addr12)

theorem decodeWord_ldI : decodeWord (wordNNN 0xA nnn) = .ok (.ldI nnn) := by
  unfold decodeWord
  rw [fieldN1_wordNNN, fieldNNN_wordNNN]
  rfl

/-- A word of group F is told apart by its low byte. -/
theorem decodeWord_groupF : decodeWord (wordXKK 0xF x kk) = decodeGroupF (wordXKK 0xF x kk) := by
  unfold decodeWord
  rw [fieldN1_wordXKK]
  rfl

theorem decodeWord_addI : decodeWord (wordXKK 0xF x 0x1E) = .ok (.addI x) := by
  rw [decodeWord_groupF, decodeGroupF, fieldKK_wordXKK, fieldX_wordXKK]
  rfl

theorem decodeWord_ldF : decodeWord (wordXKK 0xF x 0x29) = .ok (.ldF x) := by
  rw [decodeWord_groupF, decodeGroupF, fieldKK_wordXKK, fieldX_wordXKK]
  rfl

end Words

end Sys2Proof

namespace Sys2Proof.Machine

/-! ### The index register -/

/-- The glyph of any byte has its address within the 16 bits of `I`: nothing is masked (R172). -/
theorem glyphAddress_toNat (b : Byte) : (glyphAddress b).toNat = b.toNat * 5 := by
  unfold glyphAddress
  rw [BitVec.toNat_ofNat]
  omega

/-- Settles O35: each form writes `I` alone and advances; only the sum of `Fx1E` wraps, at 12 bits. -/
theorem indexRegisterIsWritten : Obligations.IndexRegisterIsWritten := by
  unfold Obligations.IndexRegisterIsWritten
  refine ⟨fun s nnn => ⟨decodeWord_ldI nnn, _, exec_ldI s nnn, addressImm_toNat nnn, rfl, rfl⟩, fun s x => ?_⟩
  refine ⟨decodeWord_addI x, decodeWord_ldF x, ?_, ?_⟩
  · exact ⟨_, exec_addI s x, wrap12_toNat s.I (s.reg x), rfl, rfl⟩
  · exact ⟨_, exec_ldF s x, glyphAddress_toNat (s.reg x), rfl, rfl, rfl⟩

end Sys2Proof.Machine
end

section
/-! PROOFS. Keypad and timers (45_keypad_timers.md): the skips on a key (R210, R211), the key wait (R212), the timer
instructions (R213 to R215) and the tick (R222). -/

namespace Sys2Proof

/-! ### The words of these instructions (R84) -/

section Words
variable (x : Reg)

theorem decodeWord_skp : decodeWord (wordXKK 0xE x 0x9E) = .ok (.skp x) := by
  unfold decodeWord
  rw [fieldN1_wordXKK, fieldX_wordXKK, fieldKK_wordXKK]
  rfl

theorem decodeWord_sknp : decodeWord (wordXKK 0xE x 0xA1) = .ok (.sknp x) := by
  unfold decodeWord
  rw [fieldN1_wordXKK, fieldX_wordXKK, fieldKK_wordXKK]
  rfl

theorem decodeWord_ldVxDT : decodeWord (wordXKK 0xF x 0x07) = .ok (.ldVxDT x) := by
  rw [decodeWord_groupF, decodeGroupF, fieldKK_wordXKK, fieldX_wordXKK]
  rfl

theorem decodeWord_ldVxK : decodeWord (wordXKK 0xF x 0x0A) = .ok (.ldVxK x) := by
  rw [decodeWord_groupF, decodeGroupF, fieldKK_wordXKK, fieldX_wordXKK]
  rfl

theorem decodeWord_ldDTVx : decodeWord (wordXKK 0xF x 0x15) = .ok (.ldDTVx x) := by
  rw [decodeWord_groupF, decodeGroupF, fieldKK_wordXKK, fieldX_wordXKK]
  rfl

theorem decodeWord_ldSTVx : decodeWord (wordXKK 0xF x 0x18) = .ok (.ldSTVx x) := by
  rw [decodeWord_groupF, decodeGroupF, fieldKK_wordXKK, fieldX_wordXKK]
  rfl

end Words

end Sys2Proof

namespace Sys2Proof.Machine

/-- A running core whose instruction completes counts the cycle and samples the inputs (R100, R223). -/
theorem cycle_of_exec_next {s u : State} {i : Instr} (period : Nat) (hF : s.FAULT = none) (hle : s.pc.toNat ≤ 4094)
    (hd : decodeWord s.wordAtPc = .ok i) (h : exec i s = .next u) :
    cycle period s = .next (u.countCycle period).sampleInputs := by
  rw [cycle_of_le period hF hle, runWord_of_decoded s hd, h]
  rfl

/-- The count at the end of a cycle is that of the state the instruction leaves (R108, R223). -/
theorem cycleCounted_of_exec_next {s u : State} {i : Instr} (period : Nat) (hF : s.FAULT = none)
    (hle : s.pc.toNat ≤ 4094) (hd : decodeWord s.wordAtPc = .ok i) (h : exec i s = .next u) :
    ∃ t, cycle period s = .next t ∧ CycleCounted period u t :=
  ⟨_, cycle_of_exec_next period hF hle hd h, cycleCounted_finish period rfl rfl rfl⟩

/-! ### Skips on a key -/

/-- The mask of the selected key is a remainder modulo 16 (R210). -/
theorem keyHeld_eq (s : State) (b : Byte) : s.keyHeld b = s.KEYS.getLsbD (b.toNat % 16) := by
  have hmask : (b &&& 0x0F#8).toNat = b.toNat % 16 := by
    rw [BitVec.toNat_and]
    exact Nat.and_two_pow_sub_one_eq_mod b.toNat 4
  rw [State.keyHeld, hmask]

/-- Settles O45: the two forms skip under opposite conditions on the key numbered `V[x]` modulo 16. -/
theorem skipTestsTheSelectedKey : Obligations.SkipTestsTheSelectedKey := by
  unfold Obligations.SkipTestsTheSelectedKey
  intro s x
  refine ⟨decodeWord_skp x, decodeWord_sknp x, ⟨_, exec_skp s x, ?_, ?_⟩, ⟨_, exec_sknp s x, ?_, ?_⟩⟩
  · rw [advance_V, skipIf_V]
  · rw [skipIf_advance_pc, keyHeld_eq]
  · rw [advance_V, skipIf_V]
  · rw [skipIf_advance_pc, keyHeld_eq]
    cases s.KEYS.getLsbD ((s.reg x).toNat % 16) with
    | false => rfl
    | true => rfl

/-! ### The key wait -/

/-- The scan stops at the first held key it visits (R212). -/
theorem firstKeyFrom_eq_some {keys : BitVec 16} {n k j : Nat} (hkj : k ≤ j) (hj : j < k + n)
    (hheld : keys.getLsbD j = true) (hleast : ∀ i, k ≤ i → i < j → keys.getLsbD i = false) :
    firstKeyFrom keys n k = some j := by
  induction n generalizing k with
  | zero => omega
  | succ n ih =>
    unfold firstKeyFrom
    rcases Nat.eq_or_lt_of_le hkj with rfl | hlt
    · rw [if_pos hheld]
    · rw [if_neg (Bool.eq_false_iff.mp (hleast k le_rfl hlt))]
      exact ih hlt (by omega) fun i hi => hleast i (by omega)

section KeyWait
variable {s : State} (x : Reg)

/-- With a key held `Fx0A` takes the least (R212). -/
theorem exec_ldVxK_of_held {k : Nat} (hk : k < 16) (hheld : s.KEYS.getLsbD k = true)
    (hleast : ∀ j, j < k → s.KEYS.getLsbD j = false) :
    exec (.ldVxK x) s = .next (s.setReg x (BitVec.ofNat 8 k)).advance := by
  have hfirst : s.firstKey = some k :=
    firstKeyFrom_eq_some (Nat.zero_le k) (by omega) hheld fun j _ => hleast j
  rw [exec_ldVxK, execLdVxK, hfirst]

/-- With no key held `Fx0A` changes nothing (R212). -/
theorem exec_ldVxK_of_none (hnone : ∀ j, j < 16 → s.KEYS.getLsbD j = false) : exec (.ldVxK x) s = .next s := by
  have hfirst : s.firstKey = none :=
    (firstKeyFrom_eq_none_iff s.KEYS 16 0).mpr fun j _ hj => hnone j (by omega)
  rw [exec_ldVxK, execLdVxK, hfirst]

end KeyWait

/-- Settles O46: the ascending scan stops at the least held key; without one the state itself is counted as the end
of a cycle. -/
theorem keyWaitTakesTheLeastKeyOrRepeats : Obligations.KeyWaitTakesTheLeastKeyOrRepeats := by
  unfold Obligations.KeyWaitTakesTheLeastKeyOrRepeats
  intro s x
  refine ⟨decodeWord_ldVxK x, fun k hk hheld hleast => ?_, fun hnone => ?_⟩
  · refine ⟨_, exec_ldVxK_of_held x hk hheld hleast, ?_, rfl, reg_VF_setReg_advance s x _⟩
    rw [reg_setReg_advance_self, BitVec.toNat_ofNat]
    omega
  · have hwait := exec_ldVxK_of_none x hnone
    refine ⟨hwait, fun hF hle hw period => ⟨(s.countCycle period).sampleInputs, ?_, ?_, ?_,
      cycleCounted_finish period rfl rfl rfl⟩⟩
    · exact cycle_of_exec_next period hF hle (hw ▸ decodeWord_ldVxK x) hwait
    · rw [sampleInputs_pc, countCycle_pc]
    · simp [SameProgramState]

/-! ### What an instruction does to the timers -/

section Timers
variable {s t : State}

theorem keepsTimers_of_skip {c : Bool} (h : (.next (s.skipIf c).advance : Result) = .next t) : KeepsTimers s t := by
  obtain rfl := Host.Outcome.next.inj h
  exact ⟨skipIf_DT s c, skipIf_ST s c⟩

theorem keepsTimers_of_ldVxK {x : Reg} (h : exec (.ldVxK x) s = .next t) : KeepsTimers s t := by
  rw [exec_ldVxK, execLdVxK] at h
  obtain rfl := Host.Outcome.next.inj h
  cases s.firstKey with
  | none => exact ⟨rfl, rfl⟩
  | some k => exact ⟨rfl, rfl⟩

theorem keepsTimers_of_store {bytes : List Byte} (h : s.storeAtI bytes = .next t) : KeepsTimers s t := by
  obtain ⟨rfl, -⟩ := storeAtI_next h
  exact ⟨rfl, rfl⟩

/-- Every instruction keeps both timers, but `Fx15` writes `DT` and `Fx18` writes `ST` (R26, R27). -/
theorem timers_of_exec {i : Instr} (h : exec i s = .next t) :
    KeepsTimers s t ∨ (∃ x, i = .ldDTVx x ∧ t.DT = s.reg x ∧ t.ST = s.ST) ∨
      (∃ x, i = .ldSTVx x ∧ t.DT = s.DT ∧ t.ST = s.reg x) := by
  cases i with
  | ldDTVx x =>
    obtain rfl := Host.Outcome.next.inj h
    exact .inr (.inl ⟨x, rfl, rfl, rfl⟩)
  | ldSTVx x =>
    obtain rfl := Host.Outcome.next.inj h
    exact .inr (.inr ⟨x, rfl, rfl, rfl⟩)
  | ret =>
    obtain ⟨_, -, rfl⟩ := execRet_next h
    exact .inl ⟨rfl, rfl⟩
  | call _ =>
    obtain ⟨_, rfl⟩ := execCall_next h
    exact .inl ⟨rfl, rfl⟩
  | drw _ _ _ =>
    obtain ⟨_, -, rfl, -⟩ := execDrw_next h
    exact .inl ⟨rfl, rfl⟩
  | load _ =>
    obtain ⟨rfl, -⟩ := execLoad_next h
    exact .inl ⟨rfl, rfl⟩
  | ldB _ | store _ => exact .inl (keepsTimers_of_store h)
  | seImm _ _ | sneImm _ _ | seReg _ _ | sneReg _ _ | skp _ | sknp _ => exact .inl (keepsTimers_of_skip h)
  | ldVxK _ => exact .inl (keepsTimers_of_ldVxK h)
  | cls | jp _ | jpV0 _ | ldI _ | addI _ | ldF _ | ldVxDT _ | rnd _ _ | ldImm _ _ | addImm _ _ | ldReg _ _
  | orReg _ _ | andReg _ _ | xorReg _ _ | addReg _ _ | subReg _ _ | shr _ _ | subnReg _ _ | shl _ _ =>
    obtain rfl := Host.Outcome.next.inj h
    exact .inl ⟨rfl, rfl⟩

/-- `DT` is written by `Fx15` only (R213, R214). -/
theorem DT_of_exec {i : Instr} (h : exec i s = .next t) : t.DT = s.DT ∨ ∃ x, i = .ldDTVx x ∧ t.DT = s.reg x := by
  rcases timers_of_exec h with ⟨hDT, -⟩ | ⟨x, hi, hDT, -⟩ | ⟨_, -, hDT, -⟩
  · exact .inl hDT
  · exact .inr ⟨x, hi, hDT⟩
  · exact .inl hDT

/-- `ST` is written by `Fx18` only (R215). -/
theorem ST_of_exec {i : Instr} (h : exec i s = .next t) : t.ST = s.ST ∨ ∃ x, i = .ldSTVx x ∧ t.ST = s.reg x := by
  rcases timers_of_exec h with ⟨-, hST⟩ | ⟨_, -, -, hST⟩ | ⟨x, hi, -, hST⟩
  · exact .inl hST
  · exact .inl hST
  · exact .inr ⟨x, hi, hST⟩

end Timers

/-- Settles O14: a tick counts both timers down, and neither an instruction nor the event of a faulted core ticks. -/
theorem tickCountsBothTimersDown : Obligations.TickCountsBothTimersDown := by
  unfold Obligations.TickCountsBothTimersDown
  intro s
  refine ⟨countDown_toNat s.DT, countDown_toNat s.ST, rfl, fun i t h => ⟨DT_of_exec h, ST_of_exec h⟩,
    fun period r hF => ?_⟩
  obtain ⟨-, hsame⟩ := faultedCoreTakesNoStep period s r hF
  rw [hsame]
  exact ⟨rfl, rfl⟩

/-- Settles O47: the state an `Fx15` or `Fx18` leaves is the one whose cycle is counted, so a tick at its end already
takes the written timer down. -/
theorem timersAreReadAndWritten : Obligations.TimersAreReadAndWritten := by
  unfold Obligations.TimersAreReadAndWritten
  intro s x
  refine ⟨decodeWord_ldVxDT x, decodeWord_ldDTVx x, decodeWord_ldSTVx x, ?_, ⟨_, exec_ldDTVx s x, rfl, rfl, rfl⟩,
    ⟨_, exec_ldSTVx s x, rfl, rfl, rfl⟩, fun hF hle hw period => ?_, fun hF hle hw period => ?_,
    fun i t h hi => ?_, fun i t h hi => ?_⟩
  · exact ⟨_, exec_ldVxDT s x, reg_setReg_advance_self s x s.DT, rfl, reg_VF_setReg_advance s x s.DT⟩
  · obtain ⟨t, ht, hgoesOn, hfull⟩ :=
      cycleCounted_of_exec_next period hF hle (hw ▸ decodeWord_ldDTVx x) (exec_ldDTVx s x)
    refine ⟨t, ht, fun hlt => ?_, fun hlast => ?_⟩
    · obtain ⟨-, hDT, -⟩ := hgoesOn hlt
      exact hDT
    · obtain ⟨-, hDT, -⟩ := hfull hlast
      exact hDT
  · obtain ⟨t, ht, hgoesOn, hfull⟩ :=
      cycleCounted_of_exec_next period hF hle (hw ▸ decodeWord_ldSTVx x) (exec_ldSTVx s x)
    refine ⟨t, ht, fun hlt => ?_, fun hlast => ?_⟩
    · obtain ⟨-, -, hST⟩ := hgoesOn hlt
      exact hST
    · obtain ⟨-, -, hST⟩ := hfull hlast
      exact hST
  · exact (DT_of_exec h).resolve_right fun ⟨z, hz, _⟩ => hi z hz
  · exact (ST_of_exec h).resolve_right fun ⟨z, hz, _⟩ => hi z hz

end Sys2Proof.Machine
end

section
/-! PROOFS. The host's load (60_exceptions.md R234): what it answers on each side of the bound, and that a core which
latched a fatal error runs no cycle. -/

namespace Sys2Proof.Machine

section Load
variable {s : State} {image : List Byte}

/-- The room from 0x200 to the end of memory is 3584 bytes (R234). -/
theorem passesMemory_iff : Config.romBase + image.length > Config.memSize ↔ 3584 < image.length := by
  simp only [Config.romBase, Config.memSize]
  omega

/-- An image that passes the end of memory is ImageTooLarge (R234). -/
theorem loadImage_of_gt (h : 3584 < image.length) : s.loadImage image = .fault (.imageTooLarge image.length) := by
  rw [State.loadImage, if_pos (passesMemory_iff.mpr h)]

/-- An image that fits is written from 0x200 upward, and only memory changes (R12, R262). -/
theorem loadImage_of_le (h : image.length ≤ 3584) :
    s.loadImage image = .next { s with MEM := s.MEM.writeBytes 0x200 image } := by
  rw [State.loadImage, if_neg (passesMemory_iff.not.mpr (Nat.not_lt.mpr h))]

end Load

/-- After a fatal error the latch holds a record, the new one or the one it held before (R33). -/
theorem latch_FAULT_eq_some (s : State) (f : Fault) : ∃ r, (s.latch f).FAULT = some r := by
  cases hF : s.FAULT with
  | none => exact ⟨f.record, by simp only [State.latch, hF]⟩
  | some r => exact ⟨r, by rw [latch_of_faulted f hF, hF]⟩

/-- Settles O21: the two answers of a load, the second read back through the law of a written block of bytes. -/
theorem loadPlacesTheImageOrFails : Obligations.LoadPlacesTheImageOrFails := by
  unfold Obligations.LoadPlacesTheImageOrFails
  intro s image hwf
  refine ⟨fun htoo => ⟨loadImage_of_gt htoo, fun period t => ?_⟩, fun hfits => ?_, loadImage_of_le (Nat.zero_le _)⟩
  · obtain ⟨r, hlatched⟩ := latch_FAULT_eq_some s (.imageTooLarge image.length)
    obtain ⟨hnever, -⟩ := faultedCoreTakesNoStep period _ r hlatched
    exact hnever t
  · have ⟨hrising, _⟩ := hwf
    have hread := fun b => Memory.read_writeBytes image s.MEM 0x200 b hrising
    refine ⟨_, loadImage_of_le hfits, rfl, ?_, fun k hk => ?_, fun b hout => ?_⟩
    · exact Memory.wf_writeBytes image s.MEM 0x200 hwf (by simp only [Config.memSize]; omega)
    · rw [State.byteAt, hread, if_pos (by omega), Nat.add_sub_cancel_left, List.getD_eq_getElem _ _ hk]
    · rw [State.byteAt, hread, if_neg hout, State.byteAt]

end Sys2Proof.Machine
end

section
/-! PROOFS. Encoding (30_encoding.md): the decoder and the encoder are inverse to each other, the decoder selects the
row of R84, and the words it rejects are the groups of R87. -/

namespace Sys2Proof

/-! ### The remaining words of R84 -/

section Words
variable (x y : Reg) (n : Nibble)

theorem decodeWord_cls : decodeWord 0x00E0 = .ok .cls := rfl

theorem decodeWord_ret : decodeWord 0x00EE = .ok .ret := rfl

theorem decodeWord_seReg : decodeWord (wordXYN 0x5 x y 0x0) = .ok (.seReg x y) := by
  unfold decodeWord
  rw [fieldN1_wordXYN, fieldN4_wordXYN, fieldX_wordXYN, fieldY_wordXYN]
  rfl

theorem decodeWord_sneReg : decodeWord (wordXYN 0x9 x y 0x0) = .ok (.sneReg x y) := by
  unfold decodeWord
  rw [fieldN1_wordXYN, fieldN4_wordXYN, fieldX_wordXYN, fieldY_wordXYN]
  rfl

theorem decodeWord_addReg : decodeWord (wordXYN 0x8 x y 0x4) = .ok (.addReg x y) := by
  rw [decodeWord_group8, decodeGroup8, fieldN4_wordXYN, fieldX_wordXYN, fieldY_wordXYN]
  rfl

theorem decodeWord_subReg : decodeWord (wordXYN 0x8 x y 0x5) = .ok (.subReg x y) := by
  rw [decodeWord_group8, decodeGroup8, fieldN4_wordXYN, fieldX_wordXYN, fieldY_wordXYN]
  rfl

theorem decodeWord_shr : decodeWord (wordXYN 0x8 x y 0x6) = .ok (.shr x y) := by
  rw [decodeWord_group8, decodeGroup8, fieldN4_wordXYN, fieldX_wordXYN, fieldY_wordXYN]
  rfl

theorem decodeWord_subnReg : decodeWord (wordXYN 0x8 x y 0x7) = .ok (.subnReg x y) := by
  rw [decodeWord_group8, decodeGroup8, fieldN4_wordXYN, fieldX_wordXYN, fieldY_wordXYN]
  rfl

theorem decodeWord_shl : decodeWord (wordXYN 0x8 x y 0xE) = .ok (.shl x y) := by
  rw [decodeWord_group8, decodeGroup8, fieldN4_wordXYN, fieldX_wordXYN, fieldY_wordXYN]
  rfl

theorem decodeWord_drw : decodeWord (wordXYN 0xD x y n) = .ok (.drw x y n.toNat) := by
  unfold decodeWord
  rw [fieldN1_wordXYN, fieldN4_wordXYN, fieldX_wordXYN, fieldY_wordXYN]
  rfl

/-- A row count below 16 is the value of its field (R81). -/
theorem decodeWord_drw_of_lt {n : Nat} (h : n < 16) :
    decodeWord (wordXYN 0xD x y (BitVec.ofNat 4 n)) = .ok (.drw x y n) := by
  rw [decodeWord_drw, BitVec.toNat_ofNat, Nat.mod_eq_of_lt h]

theorem decodeWord_ldB : decodeWord (wordXKK 0xF x 0x33) = .ok (.ldB x) := by
  rw [decodeWord_groupF, decodeGroupF, fieldKK_wordXKK, fieldX_wordXKK]
  rfl

theorem decodeWord_store : decodeWord (wordXKK 0xF x 0x55) = .ok (.store x) := by
  rw [decodeWord_groupF, decodeGroupF, fieldKK_wordXKK, fieldX_wordXKK]
  rfl

theorem decodeWord_load : decodeWord (wordXKK 0xF x 0x65) = .ok (.load x) := by
  rw [decodeWord_groupF, decodeGroupF, fieldKK_wordXKK, fieldX_wordXKK]
  rfl

end Words

/-! ### Decoding what was encoded -/

/-- The decoder reads the word of every well-formed instruction as that instruction (R84). -/
theorem decodeWord_encode : ∀ i : Instr, i.WellFormed → decodeWord (encode i) = .ok i
  | .cls, _ => decodeWord_cls
  | .ret, _ => decodeWord_ret
  | .jp a, _ => decodeWord_jp a
  | .call a, _ => decodeWord_call a
  | .seImm x kk, _ => decodeWord_seImm x kk
  | .sneImm x kk, _ => decodeWord_sneImm x kk
  | .seReg x y, _ => decodeWord_seReg x y
  | .ldImm x kk, _ => decodeWord_ldImm x kk
  | .addImm x kk, _ => decodeWord_addImm x kk
  | .ldReg x y, _ => decodeWord_ldReg x y
  | .orReg x y, _ => decodeWord_orReg x y
  | .andReg x y, _ => decodeWord_andReg x y
  | .xorReg x y, _ => decodeWord_xorReg x y
  | .addReg x y, _ => decodeWord_addReg x y
  | .subReg x y, _ => decodeWord_subReg x y
  | .shr x y, _ => decodeWord_shr x y
  | .subnReg x y, _ => decodeWord_subnReg x y
  | .shl x y, _ => decodeWord_shl x y
  | .sneReg x y, _ => decodeWord_sneReg x y
  | .ldI a, _ => decodeWord_ldI a
  | .jpV0 a, _ => decodeWord_jpV0 a
  | .rnd x kk, _ => decodeWord_rnd x kk
  | .drw x y _, h => decodeWord_drw_of_lt x y (of_decide_eq_true h)
  | .skp x, _ => decodeWord_skp x
  | .sknp x, _ => decodeWord_sknp x
  | .ldVxDT x, _ => decodeWord_ldVxDT x
  | .ldVxK x, _ => decodeWord_ldVxK x
  | .ldDTVx x, _ => decodeWord_ldDTVx x
  | .ldSTVx x, _ => decodeWord_ldSTVx x
  | .addI x, _ => decodeWord_addI x
  | .ldF x, _ => decodeWord_ldF x
  | .ldB x, _ => decodeWord_ldB x
  | .store x, _ => decodeWord_store x
  | .load x, _ => decodeWord_load x

section Bytes
variable {w : Word} {i : Instr}

/-- The bytes of a word that decodes are read as its instruction, and nothing behind them is touched (R80). -/
theorem decode_bytesOfWord_append (rest : List Byte) (h : decodeWord w = .ok i) :
    decode (bytesOfWord w ++ rest) = .ok (i, rest) := by
  have hcons : bytesOfWord w ++ rest = highByte w :: lowByte w :: rest := rfl
  rw [hcons, decode_cons, wordOfBytes_bytes, h]

/-- The host's 16-bit window hands the word to the decoder unchanged. -/
theorem decodeTableWord_of_decodeWord (h : decodeWord w = .ok i) : decodeTableWord 16 w.toNat = some i := by
  have hw : BitVec.ofNat 16 (w.toNat % 2 ^ 16) = w := by
    rw [Nat.mod_eq_of_lt w.isLt, BitVec.ofNat_toNat, BitVec.setWidth_eq]
  have hbytes : decode (bytesOfWord w) = .ok (i, []) := decode_bytesOfWord_append [] h
  rw [decodeTableWord, hw, hbytes]

end Bytes

/-- Settles O1: the word of each constructor has the fields the decoder tells it by. -/
theorem decodeOfEncodeGivesTheInstructionBack : Obligations.DecodeOfEncodeGivesTheInstructionBack := by
  unfold Obligations.DecodeOfEncodeGivesTheInstructionBack
  intro i hi
  have hword := decodeWord_encode i hi
  exact ⟨hword, fun rest => decode_bytesOfWord_append rest hword, decodeTableWord_of_decodeWord hword⟩

/-! ### Encoding what was decoded -/

section Decoded
variable {w : Word} {i : Instr}

theorem wellFormed_of_decodeGroup8 (h : decodeGroup8 w = .ok i) : i.WellFormed := by
  unfold decodeGroup8 at h
  split at h <;> cases h
  all_goals rfl

theorem wellFormed_of_decodeGroupF (h : decodeGroupF w = .ok i) : i.WellFormed := by
  unfold decodeGroupF at h
  split at h <;> cases h
  all_goals rfl

/-- The decoder answers well-formed terms only: a row count comes from a 4-bit field (R81). -/
theorem wellFormed_of_decodeWord (h : decodeWord w = .ok i) : i.WellFormed := by
  unfold decodeWord at h
  split at h
  case h_9 => exact wellFormed_of_decodeGroup8 h
  case h_14 => cases h; exact decide_eq_true (fieldN4 w).isLt
  case h_16 => exact wellFormed_of_decodeGroupF h
  case h_1 | h_15 =>
    split at h
    · cases h; rfl
    · split at h <;> cases h
      rfl
  case h_6 | h_10 =>
    split at h <;> cases h
    rfl
  all_goals cases h
  all_goals rfl

end Decoded

/-- Settles O2: the fields the decoder reads put the word together again, and the row count is one of them. -/
theorem encodeOfDecodeGivesTheWordBack : Obligations.EncodeOfDecodeGivesTheWordBack := by
  unfold Obligations.EncodeOfDecodeGivesTheWordBack
  intro w i h
  exact ⟨wellFormed_of_decodeWord h, encode_of_decodeWord h⟩

/-! ### The digits a mask fixes (R84) -/

section Masks
variable {p : String} {w v : Word} {n1 n : Nibble} {kk : Byte}

theorem fieldN1_and (w m : Word) : fieldN1 (w &&& m) = fieldN1 w &&& fieldN1 m := BitVec.extractLsb'_and

theorem fieldN4_and (w m : Word) : fieldN4 (w &&& m) = fieldN4 w &&& fieldN4 m := BitVec.extractLsb'_and

theorem fieldKK_and (w m : Word) : fieldKK (w &&& m) = fieldKK w &&& fieldKK m := BitVec.extractLsb'_and

/-- A mask with a full top digit fixes the top digit. -/
theorem fieldN1_of_mask {m : Word} (hm : fieldN1 m = 0xF) (h : w &&& m = v) : fieldN1 w = fieldN1 v := by
  rw [← h, fieldN1_and, hm]
  exact BitVec.and_allOnes.symm

/-- A mask with a full last digit fixes the last digit. -/
theorem fieldN4_of_mask {m : Word} (hm : fieldN4 m = 0xF) (h : w &&& m = v) : fieldN4 w = fieldN4 v := by
  rw [← h, fieldN4_and, hm]
  exact BitVec.and_allOnes.symm

/-- A mask with a full low byte fixes the low byte. -/
theorem fieldKK_of_mask {m : Word} (hm : fieldKK m = 0xFF) (h : w &&& m = v) : fieldKK w = fieldKK v := by
  rw [← h, fieldKK_and, hm]
  exact BitVec.and_allOnes.symm

/-- The full mask fixes the word. -/
theorem eq_of_mask_allOnes (h : OpRow.Matches ⟨p, 0xFFFF, v⟩ w) : v = w := by
  have hv : w &&& 0xFFFF = v := h
  rw [← hv]
  exact BitVec.and_allOnes

/-- A word of a row of format `NNN`. -/
theorem wordNNN_of_mask (h : OpRow.Matches ⟨p, 0xF000, v⟩ w) (h1 : fieldN1 v = n1) : wordNNN n1 (fieldNNN w) = w :=
  wordNNN_of_fields ((fieldN1_of_mask (m := 0xF000) rfl h).trans h1)

/-- A word of a row of format `XKK`. -/
theorem wordXKK_of_mask (h : OpRow.Matches ⟨p, 0xF000, v⟩ w) (h1 : fieldN1 v = n1) :
    wordXKK n1 (fieldX w) (fieldKK w) = w :=
  wordXKK_of_fields ((fieldN1_of_mask (m := 0xF000) rfl h).trans h1) rfl

/-- A word of a row of format `X`. -/
theorem wordX_of_mask (h : OpRow.Matches ⟨p, 0xF0FF, v⟩ w) (h1 : fieldN1 v = n1) (hkk : fieldKK v = kk) :
    wordXKK n1 (fieldX w) kk = w :=
  wordXKK_of_fields ((fieldN1_of_mask (m := 0xF0FF) rfl h).trans h1) ((fieldKK_of_mask (m := 0xF0FF) rfl h).trans hkk)

/-- A word of a row of format `XY`. -/
theorem wordXY_of_mask (h : OpRow.Matches ⟨p, 0xF00F, v⟩ w) (h1 : fieldN1 v = n1) (hn : fieldN4 v = n) :
    wordXYN n1 (fieldX w) (fieldY w) n = w :=
  wordXYN_of_fields ((fieldN1_of_mask (m := 0xF00F) rfl h).trans h1) ((fieldN4_of_mask (m := 0xF00F) rfl h).trans hn)

/-- A word of the row of format `XYN`, its last digit as a number. -/
theorem wordXYN_of_mask (h : OpRow.Matches ⟨p, 0xF000, v⟩ w) (h1 : fieldN1 v = n1) :
    wordXYN n1 (fieldX w) (fieldY w) (BitVec.ofNat 4 (fieldN4 w).toNat) = w :=
  wordXYN_of_fields ((fieldN1_of_mask (m := 0xF000) rfl h).trans h1) (by rw [BitVec.ofNat_toNat, BitVec.setWidth_eq])

end Masks

/-! ### The row a word matches (R84) -/

/-- A word that matches the row of an instruction is the word of a well-formed instruction of that row: the digits the
mask leaves free are its fields. -/
theorem exists_encode_of_matches {w : Word} : ∀ {i : Instr}, i.row.Matches w →
    ∃ j, j.WellFormed ∧ encode j = w ∧ j.row = i.row
  | .cls, h => ⟨.cls, rfl, eq_of_mask_allOnes h, rfl⟩
  | .ret, h => ⟨.ret, rfl, eq_of_mask_allOnes h, rfl⟩
  | .jp _, h => ⟨.jp (fieldNNN w), rfl, wordNNN_of_mask h rfl, rfl⟩
  | .call _, h => ⟨.call (fieldNNN w), rfl, wordNNN_of_mask h rfl, rfl⟩
  | .seImm _ _, h => ⟨.seImm (fieldX w) (fieldKK w), rfl, wordXKK_of_mask h rfl, rfl⟩
  | .sneImm _ _, h => ⟨.sneImm (fieldX w) (fieldKK w), rfl, wordXKK_of_mask h rfl, rfl⟩
  | .seReg _ _, h => ⟨.seReg (fieldX w) (fieldY w), rfl, wordXY_of_mask h rfl rfl, rfl⟩
  | .ldImm _ _, h => ⟨.ldImm (fieldX w) (fieldKK w), rfl, wordXKK_of_mask h rfl, rfl⟩
  | .addImm _ _, h => ⟨.addImm (fieldX w) (fieldKK w), rfl, wordXKK_of_mask h rfl, rfl⟩
  | .ldReg _ _, h => ⟨.ldReg (fieldX w) (fieldY w), rfl, wordXY_of_mask h rfl rfl, rfl⟩
  | .orReg _ _, h => ⟨.orReg (fieldX w) (fieldY w), rfl, wordXY_of_mask h rfl rfl, rfl⟩
  | .andReg _ _, h => ⟨.andReg (fieldX w) (fieldY w), rfl, wordXY_of_mask h rfl rfl, rfl⟩
  | .xorReg _ _, h => ⟨.xorReg (fieldX w) (fieldY w), rfl, wordXY_of_mask h rfl rfl, rfl⟩
  | .addReg _ _, h => ⟨.addReg (fieldX w) (fieldY w), rfl, wordXY_of_mask h rfl rfl, rfl⟩
  | .subReg _ _, h => ⟨.subReg (fieldX w) (fieldY w), rfl, wordXY_of_mask h rfl rfl, rfl⟩
  | .shr _ _, h => ⟨.shr (fieldX w) (fieldY w), rfl, wordXY_of_mask h rfl rfl, rfl⟩
  | .subnReg _ _, h => ⟨.subnReg (fieldX w) (fieldY w), rfl, wordXY_of_mask h rfl rfl, rfl⟩
  | .shl _ _, h => ⟨.shl (fieldX w) (fieldY w), rfl, wordXY_of_mask h rfl rfl, rfl⟩
  | .sneReg _ _, h => ⟨.sneReg (fieldX w) (fieldY w), rfl, wordXY_of_mask h rfl rfl, rfl⟩
  | .ldI _, h => ⟨.ldI (fieldNNN w), rfl, wordNNN_of_mask h rfl, rfl⟩
  | .jpV0 _, h => ⟨.jpV0 (fieldNNN w), rfl, wordNNN_of_mask h rfl, rfl⟩
  | .rnd _ _, h => ⟨.rnd (fieldX w) (fieldKK w), rfl, wordXKK_of_mask h rfl, rfl⟩
  | .drw _ _ _, h =>
    ⟨.drw (fieldX w) (fieldY w) (fieldN4 w).toNat, decide_eq_true (fieldN4 w).isLt, wordXYN_of_mask h rfl, rfl⟩
  | .skp _, h => ⟨.skp (fieldX w), rfl, wordX_of_mask h rfl rfl, rfl⟩
  | .sknp _, h => ⟨.sknp (fieldX w), rfl, wordX_of_mask h rfl rfl, rfl⟩
  | .ldVxDT _, h => ⟨.ldVxDT (fieldX w), rfl, wordX_of_mask h rfl rfl, rfl⟩
  | .ldVxK _, h => ⟨.ldVxK (fieldX w), rfl, wordX_of_mask h rfl rfl, rfl⟩
  | .ldDTVx _, h => ⟨.ldDTVx (fieldX w), rfl, wordX_of_mask h rfl rfl, rfl⟩
  | .ldSTVx _, h => ⟨.ldSTVx (fieldX w), rfl, wordX_of_mask h rfl rfl, rfl⟩
  | .addI _, h => ⟨.addI (fieldX w), rfl, wordX_of_mask h rfl rfl, rfl⟩
  | .ldF _, h => ⟨.ldF (fieldX w), rfl, wordX_of_mask h rfl rfl, rfl⟩
  | .ldB _, h => ⟨.ldB (fieldX w), rfl, wordX_of_mask h rfl rfl, rfl⟩
  | .store _, h => ⟨.store (fieldX w), rfl, wordX_of_mask h rfl rfl, rfl⟩
  | .load _, h => ⟨.load (fieldX w), rfl, wordX_of_mask h rfl rfl, rfl⟩

/-- The table lists rows of instructions only. -/
theorem exists_instr_of_mem_opcodeTable {r : OpRow} (h : r ∈ opcodeTable) : ∃ i : Instr, i.row = r := by
  rw [opcodeTable, ← List.map_append, ← List.map_append, ← List.map_append] at h
  obtain ⟨i, -, hi⟩ := List.mem_map.mp h
  exact ⟨i, hi⟩

/-- A word that matches a row of the table decodes to an instruction of that row. -/
theorem exists_decodeWord_of_matches {w : Word} {r : OpRow} (hr : r ∈ opcodeTable) (h : r.Matches w) :
    ∃ i, decodeWord w = .ok i ∧ i.row = r := by
  obtain ⟨i, rfl⟩ := exists_instr_of_mem_opcodeTable hr
  obtain ⟨j, hwf, rfl, hrow⟩ := exists_encode_of_matches h
  exact ⟨j, decodeWord_encode j hwf, hrow⟩

/-- Settles O3: a word matches a row exactly when it is the word of an instruction of the row, so the decoder's one
answer decides between two rows. -/
theorem decoderSelectsTheMatchingRow : Obligations.DecoderSelectsTheMatchingRow := by
  unfold Obligations.DecoderSelectsTheMatchingRow
  refine ⟨rfl, fun w i h => ⟨row_mem_opcodeTable i, row_matches_of_decodeWord h⟩,
    fun w r => exists_decodeWord_of_matches, fun w r q hr hq hrw hqw => ?_⟩
  obtain ⟨i, hi, rfl⟩ := exists_decodeWord_of_matches hr hrw
  obtain ⟨j, hj, rfl⟩ := exists_decodeWord_of_matches hq hqw
  have hij : i = j := Except.ok.inj (hi.symm.trans hj)
  rw [hij]

/-! ### The rejected words (R87) -/

section Rejected
variable {w : Word}

/-- Every digit is one of the sixteen. -/
theorem nibble_cases : ∀ n : Nibble, n = 0x0 ∨ n = 0x1 ∨ n = 0x2 ∨ n = 0x3 ∨ n = 0x4 ∨ n = 0x5 ∨ n = 0x6 ∨ n = 0x7 ∨
    n = 0x8 ∨ n = 0x9 ∨ n = 0xA ∨ n = 0xB ∨ n = 0xC ∨ n = 0xD ∨ n = 0xE ∨ n = 0xF := by
  decide

/-- Two tests in turn reject exactly when both fail. -/
theorem ite_ite_error_iff {p q : Prop} [Decidable p] [Decidable q] {i j : Instr} {r : Reject} :
    (if p then .ok i else if q then .ok j else .error r : Except Reject Instr) = .error r ↔ ¬p ∧ ¬q := by
  by_cases hp : p
  · simp [hp]
  · by_cases hq : q <;> simp [hp, hq]

/-- The words of group 8 that no row matches. -/
theorem decodeGroup8_error_iff : decodeGroup8 w = .error (.unmatched w) ↔
    fieldN4 w ∈ ([0x8, 0x9, 0xA, 0xB, 0xC, 0xD, 0xF] : List Nibble) := by
  have hrest : ∀ n : Nibble, n ≠ 0x0 → n ≠ 0x1 → n ≠ 0x2 → n ≠ 0x3 → n ≠ 0x4 → n ≠ 0x5 → n ≠ 0x6 → n ≠ 0x7 → n ≠ 0xE →
      n ∈ ([0x8, 0x9, 0xA, 0xB, 0xC, 0xD, 0xF] : List Nibble) := by decide
  unfold decodeGroup8
  split
  case h_10 h0 h1 h2 h3 h4 h5 h6 h7 hE => exact iff_of_true rfl (hrest _ h0 h1 h2 h3 h4 h5 h6 h7 hE)
  all_goals rename_i hn
  all_goals simp [hn]

/-- The words of group F that no row matches. -/
theorem decodeGroupF_error_iff : decodeGroupF w = .error (.unmatched w) ↔
    fieldKK w ∉ ([0x07, 0x0A, 0x15, 0x18, 0x1E, 0x29, 0x33, 0x55, 0x65] : List Byte) := by
  unfold decodeGroupF
  split
  case h_10 h07 h0A h15 h18 h1E h29 h33 h55 h65 =>
    exact iff_of_true rfl (by simpa using ⟨h07, h0A, h15, h18, h1E, h29, h33, h55, h65⟩)
  all_goals rename_i hkk
  all_goals simp [hkk]

/-- The groups of R87, one top digit at a time. -/
theorem decodeWord_error_iff : decodeWord w = .error (.unmatched w) ↔
    (fieldN1 w = 0x0 ∧ w ≠ 0x00E0 ∧ w ≠ 0x00EE) ∨
    (fieldN1 w = 0x5 ∧ fieldN4 w ≠ 0) ∨
    (fieldN1 w = 0x8 ∧ fieldN4 w ∈ ([0x8, 0x9, 0xA, 0xB, 0xC, 0xD, 0xF] : List Nibble)) ∨
    (fieldN1 w = 0x9 ∧ fieldN4 w ≠ 0) ∨
    (fieldN1 w = 0xE ∧ fieldKK w ∉ ([0x9E, 0xA1] : List Byte)) ∨
    (fieldN1 w = 0xF ∧ fieldKK w ∉ ([0x07, 0x0A, 0x15, 0x18, 0x1E, 0x29, 0x33, 0x55, 0x65] : List Byte)) := by
  unfold decodeWord
  split
  case h_1 h1 => simp [h1, ite_ite_error_iff]
  case h_9 h1 => simp [h1, decodeGroup8_error_iff]
  case h_15 h1 => simp [h1, ite_ite_error_iff]
  case h_16 h1 => simp [h1, decodeGroupF_error_iff]
  case h_17 h0 h1 h2 h3 h4 h5 h6 h7 h8 h9 hA hB hC hD hE hF =>
    exfalso
    rcases nibble_cases (fieldN1 w) with h | h | h | h | h | h | h | h | h | h | h | h | h | h | h | h
    exacts [h0 h, h1 h, h2 h, h3 h, h4 h, h5 h, h6 h, h7 h, h8 h, h9 h, hA h, hB h, hC h, hD h, hE h, hF h]
  all_goals rename_i h1
  all_goals simp [h1]

theorem reject_of_decodeGroup8 {r : Reject} (h : decodeGroup8 w = .error r) : r = .unmatched w := by
  unfold decodeGroup8 at h
  split at h <;> cases h
  rfl

theorem reject_of_decodeGroupF {r : Reject} (h : decodeGroupF w = .error r) : r = .unmatched w := by
  unfold decodeGroupF at h
  split at h <;> cases h
  rfl

/-- A word is rejected by the one name `unmatched`: `truncated` is for bytes that spell no word. -/
theorem reject_of_decodeWord {r : Reject} (h : decodeWord w = .error r) : r = .unmatched w := by
  unfold decodeWord at h
  split at h
  case h_9 => exact reject_of_decodeGroup8 h
  case h_16 => exact reject_of_decodeGroupF h
  case h_1 | h_15 =>
    split at h
    · cases h
    · split at h <;> cases h
      rfl
  case h_6 | h_10 =>
    split at h <;> cases h
    rfl
  case h_17 => cases h; rfl
  all_goals cases h

end Rejected

/-- Settles O4: each top digit with the test of its group; every reject stands under the name `unmatched`. -/
theorem rejectedWordsAreTheListedGroups : Obligations.RejectedWordsAreTheListedGroups := by
  unfold Obligations.RejectedWordsAreTheListedGroups
  exact fun w => ⟨decodeWord_error_iff, fun r => reject_of_decodeWord⟩

/-- Settles O5: each word is computed. -/
theorem writtenOutWordsDecode : Obligations.WrittenOutWordsDecode := by
  unfold Obligations.WrittenOutWordsDecode
  decide

end Sys2Proof
end

section
/-! PROOFS. Frames (00_scope.md R16): what each instruction leaves unchanged, read off one lemma that says which fields
an instruction can write at all. -/

namespace Sys2Proof.Machine

/-! ### The fields an instruction writes -/

section Fields
variable {s t : State}

theorem eq_of_skip {c : Bool} (h : (.next (s.skipIf c).advance : Result) = .next t) :
    t = { s with V := t.V, pc := t.pc } := by
  obtain rfl := Host.Outcome.next.inj h
  rw [skipIf_eq]
  rfl

theorem eq_of_ldVxK {x : Reg} (h : exec (.ldVxK x) s = .next t) : t = { s with V := t.V, pc := t.pc } := by
  rw [exec_ldVxK, execLdVxK] at h
  obtain rfl := Host.Outcome.next.inj h
  cases s.firstKey with
  | none => rfl
  | some k => rfl

/-- All that an instruction can write besides `pc`: registers, `I`, a timer, the bytes of `Fx33` and `Fx55`, the screen
with the flag, or the stack. -/
inductive Writes (i : Instr) (s t : State) : Prop
  /-- Registers at most. -/
  | registers (ht : t = { s with V := t.V, pc := t.pc })
  /-- `I` (R25). -/
  | index (ht : t = { s with I := t.I, pc := t.pc }) (hi : (∃ a, i = .ldI a) ∨ (∃ x, i = .addI x) ∨ ∃ x, i = .ldF x)
  /-- A timer (R26, R27). -/
  | timers (ht : t = { s with DT := t.DT, ST := t.ST, pc := t.pc })
  /-- The bytes stored at `I` (R51). -/
  | memory (bytes : List Byte) (ht : t = { s with MEM := s.MEM.writeBytes s.base bytes, pc := t.pc })
      (hlen : bytes.length = bytesStored i) (hne : bytesStored i ≠ 0) (hfits : s.base + bytesStored i ≤ 4096)
  /-- The framebuffer and the flag (R190, R192). -/
  | display (ht : t = { s with V := t.V, FB := t.FB, pc := t.pc }) (hi : i = .cls ∨ ∃ x y n, i = .drw x y n)
  /-- The call stack (R120, R121). -/
  | stack (ht : t = { s with STACK := t.STACK, SP := t.SP, pc := t.pc }) (hi : i = .ret ∨ ∃ a, i = .call a)

/-- A store at `I` writes its bytes, which fit (R58). -/
theorem writes_of_store {i : Instr} {bytes : List Byte} (hlen : bytes.length = bytesStored i) (hne : bytesStored i ≠ 0)
    (h : s.storeAtI bytes = .next t) : Writes i s t := by
  obtain ⟨rfl, hfits⟩ := storeAtI_next h
  rw [hlen] at hfits
  exact .memory bytes rfl hlen hne (hfits.resolve_left hne)

/-- Every instruction writes one of these parts of the state at most. -/
theorem exec_writes {i : Instr} (h : exec i s = .next t) : Writes i s t := by
  cases i with
  | ret =>
    obtain ⟨_, -, rfl⟩ := execRet_next h
    exact .stack rfl (.inl rfl)
  | call a =>
    obtain ⟨_, rfl⟩ := execCall_next h
    exact .stack rfl (.inr ⟨a, rfl⟩)
  | cls =>
    obtain rfl := Host.Outcome.next.inj h
    exact .display rfl (.inl rfl)
  | drw x y n =>
    obtain ⟨_, -, rfl, -⟩ := execDrw_next h
    exact .display rfl (.inr ⟨x, y, n, rfl⟩)
  | ldB _ => exact writes_of_store rfl (Nat.succ_ne_zero _) h
  | store x => exact writes_of_store (regsUpTo_length s x) (Nat.succ_ne_zero _) h
  | load _ =>
    obtain ⟨rfl, -⟩ := execLoad_next h
    exact .registers rfl
  | seImm _ _ | sneImm _ _ | seReg _ _ | sneReg _ _ | skp _ | sknp _ => exact .registers (eq_of_skip h)
  | ldVxK _ => exact .registers (eq_of_ldVxK h)
  | ldI _ | addI _ | ldF _ =>
    obtain rfl := Host.Outcome.next.inj h
    exact .index rfl (by simp)
  | ldDTVx _ | ldSTVx _ =>
    obtain rfl := Host.Outcome.next.inj h
    exact .timers rfl
  | jp _ | jpV0 _ | ldVxDT _ | rnd _ _ | ldImm _ _ | addImm _ _ | ldReg _ _ | orReg _ _ | andReg _ _ | xorReg _ _
  | addReg _ _ | subReg _ _ | shr _ _ | subnReg _ _ | shl _ _ =>
    obtain rfl := Host.Outcome.next.inj h
    exact .registers rfl

end Fields

/-- Settles O53: no instruction writes a field of the platform. -/
theorem instructionsKeepThePlatformState : Obligations.InstructionsKeepThePlatformState := by
  unfold Obligations.InstructionsKeepThePlatformState
  intro i s t h
  cases exec_writes h with
  | registers ht | index ht _ | timers ht | memory _ ht _ _ _ | display ht _ | stack ht _ =>
    rw [ht]
    exact ⟨rfl, rfl, rfl, rfl, rfl⟩

/-- Settles O52: the one case that writes `I` is that of the three instructions. -/
theorem onlyIndexInstructionsChangeTheIndex : Obligations.OnlyIndexInstructionsChangeTheIndex := by
  unfold Obligations.OnlyIndexInstructionsChangeTheIndex
  intro i s t h hldI haddI hldF
  cases exec_writes h with
  | index _ hi =>
    rcases hi with ⟨a, hi⟩ | ⟨x, hi⟩ | ⟨x, hi⟩
    · exact absurd hi (hldI a)
    · exact absurd hi (haddI x)
    · exact absurd hi (hldF x)
  | registers ht | timers ht | memory _ ht _ _ _ | display ht _ | stack ht _ => rw [ht]

theorem FB_of_exec {s t : State} {i : Instr} (h : exec i s = .next t) (hcls : i ≠ .cls)
    (hdrw : ∀ x y n, i ≠ .drw x y n) : t.FB = s.FB := by
  cases exec_writes h with
  | display _ hi =>
    rcases hi with hi | ⟨x, y, n, hi⟩
    · exact absurd hi hcls
    · exact absurd hi (hdrw x y n)
  | registers ht | index ht _ | timers ht | memory _ ht _ _ _ | stack ht _ => rw [ht]

/-- Settles O50: the one case that writes the framebuffer is that of `00E0` and `Dxyn`. -/
theorem onlyClearAndDrawChangeTheDisplay : Obligations.OnlyClearAndDrawChangeTheDisplay := by
  unfold Obligations.OnlyClearAndDrawChangeTheDisplay
  intro i s t h hcls hdrw
  have hFB := FB_of_exec h hcls hdrw
  exact ⟨hFB, fun r c => congrArg (fun fb => FrameBuffer.pixel fb r c) hFB⟩

/-! ### The stack -/

section Stack
variable {s t : State} {i : Instr}

theorem keepsStack_of_exec (h : exec i s = .next t) (hret : i ≠ .ret) (hcall : ∀ a, i ≠ .call a) :
    KeepsStack s t := by
  cases exec_writes h with
  | stack _ hi =>
    rcases hi with hi | ⟨a, hi⟩
    · exact absurd hi hret
    · exact absurd hi (hcall a)
  | registers ht | index ht _ | timers ht | memory _ ht _ _ _ | display ht _ =>
    rw [ht]
    exact ⟨rfl, rfl⟩

/-- The freed entry keeps its content (R121, R28). -/
theorem STACK_of_ret (h : exec .ret s = .next t) : t.STACK = s.STACK := by
  obtain ⟨_, -, rfl⟩ := execRet_next h
  rfl

/-- A call writes the entry at `SP` (R120). -/
theorem STACK_of_call {a : Addr12} (h : exec (.call a) s = .next t) {j : Nat} (hj : j < 16) (hne : j ≠ s.SP.val) :
    t.STACK[j] = s.STACK[j] := by
  obtain ⟨hs, rfl⟩ := execCall_next h
  exact Vector.getElem_set_ne hs hj hne.symm

/-- No instruction writes an entry but the one at `SP` (R28). -/
theorem STACK_getElem_of_exec (h : exec i s = .next t) {j : Nat} (hj : j < 16) (hne : j ≠ s.SP.val) :
    t.STACK[j] = s.STACK[j] := by
  by_cases hret : i = .ret
  · subst hret
    simp only [STACK_of_ret h]
  · by_cases hcall : ∃ a, i = .call a
    · obtain ⟨a, rfl⟩ := hcall
      exact STACK_of_call h hj hne
    · obtain ⟨-, hstack⟩ := keepsStack_of_exec h hret (not_exists.mp hcall)
      simp only [hstack]

end Stack

/-- Settles O51: the stack is written by its controller alone, which a call and a return use. -/
theorem onlyCallAndReturnChangeTheStack : Obligations.OnlyCallAndReturnChangeTheStack := by
  unfold Obligations.OnlyCallAndReturnChangeTheStack
  intro i s t h
  exact ⟨keepsStack_of_exec h, fun hret => STACK_of_ret (hret ▸ h), fun j hj => STACK_getElem_of_exec h hj⟩

/-! ### Memory -/

/-- A write leaves every other cell, whatever the list: it inserts, replaces or drops an entry at its own address. -/
theorem Memory.read_write_ne {a b : Nat} (m : Memory) (v : Byte) (h : b ≠ a) : (m.write a v).read b = m.read b := by
  induction m with
  | nil =>
    unfold Memory.write
    split
    · rfl
    · exact if_neg h
  | cons c m ih =>
    obtain ⟨k, w⟩ := c
    unfold Memory.write
    split
    · split
      · rfl
      · rw [Memory.read, if_neg h]
    · split
      next hak =>
        split
        · rw [Memory.read, if_neg (hak ▸ h)]
        · rw [Memory.read, Memory.read, if_neg h, if_neg (hak ▸ h)]
      next => rw [Memory.read, Memory.read, ih]

/-- A block write leaves every cell outside the block, whatever the list. -/
theorem Memory.read_writeBytes_outside {a b : Nat} {vs : List Byte} (m : Memory) (h : ¬(a ≤ b ∧ b < a + vs.length)) :
    (m.writeBytes a vs).read b = m.read b := by
  induction vs generalizing m a with
  | nil => rfl
  | cons v vs ih =>
    rw [List.length_cons] at h
    rw [Memory.writeBytes, ih _ (by omega), Memory.read_write_ne _ _ (by omega)]

/-- An instruction leaves memory as it is, or stores a block at `I` that fits. -/
theorem MEM_of_exec {s t : State} {i : Instr} (h : exec i s = .next t) :
    t.MEM = s.MEM ∨ ∃ bytes, t.MEM = s.MEM.writeBytes s.base bytes ∧ bytes.length = bytesStored i ∧
      bytesStored i ≠ 0 ∧ s.base + bytesStored i ≤ 4096 := by
  cases exec_writes h with
  | memory bytes ht hlen hne hfits => exact .inr ⟨bytes, by rw [ht], hlen, hne, hfits⟩
  | registers ht | index ht _ | timers ht | display ht _ | stack ht _ => exact .inl (by rw [ht])

/-- Settles O49: only `Fx33` and `Fx55` write memory, and a block write leaves every cell outside the block. -/
theorem onlyTheStoredBytesChange : Obligations.OnlyTheStoredBytesChange := by
  unfold Obligations.OnlyTheStoredBytesChange
  intro i s t h
  rcases MEM_of_exec h with hM | ⟨bytes, hM, hlen, hne, -⟩
  · have hkeeps : KeepsMemory s t := fun b => congrArg (fun m => Memory.read m b) hM
    exact ⟨fun b _ => hkeeps b, fun _ => ⟨hM, hkeeps⟩⟩
  · refine ⟨fun b hout => ?_, fun h0 => absurd h0 hne⟩
    rw [State.byteAt, hM, Memory.read_writeBytes_outside s.MEM (hlen ▸ hout), State.byteAt]

/-! ### The general registers -/

section Registers
variable {s t : State}

theorem keepsRegs_of_V_eq {l : List Reg} (h : t.V = s.V) : KeepsRegsExcept l s t := by
  intro r _
  unfold State.reg
  simp only [h]

/-- One register written. -/
theorem keepsRegs_setReg (x : Reg) (b : Byte) : KeepsRegsExcept [x] s (s.setReg x b).advance :=
  fun r hr => reg_setReg_ne s x r b (List.ne_of_not_mem_cons hr)

/-- The flag written, then a result (R15, R24). -/
theorem keepsRegs_setVF_setReg (x : Reg) (f b : Byte) :
    KeepsRegsExcept [x, VF] s ((s.setVF f).setReg x b).advance := by
  intro r hr
  simp only [List.mem_cons, List.not_mem_nil, or_false, not_or] at hr
  obtain ⟨hx, hVF⟩ := hr
  rw [advance_reg, reg_setReg_ne _ x r b hx, setVF_eq, reg_setReg_ne s VF r f hVF]

theorem keepsRegs_of_skip {l : List Reg} {c : Bool} (h : (.next (s.skipIf c).advance : Result) = .next t) :
    KeepsRegsExcept l s t := by
  obtain rfl := Host.Outcome.next.inj h
  exact keepsRegs_of_V_eq (by simp)

theorem keepsRegs_of_ldVxK {x : Reg} (h : exec (.ldVxK x) s = .next t) : KeepsRegsExcept [x] s t := by
  rw [exec_ldVxK, execLdVxK] at h
  obtain rfl := Host.Outcome.next.inj h
  cases s.firstKey with
  | none => exact keepsRegs_of_V_eq rfl
  | some k => exact keepsRegs_setReg x _

theorem keepsRegs_of_drw {x y : Reg} {n : Nat} (h : exec (.drw x y n) s = .next t) : KeepsRegsExcept [VF] s t := by
  obtain ⟨drawn, -, rfl, -⟩ := execDrw_next h
  intro r hr
  have hne : r ≠ VF := List.ne_of_not_mem_cons hr
  exact (reg_setReg_ne _ VF r _ hne).trans (reg_setReg_ne s VF r 0 hne)

/-- A block load leaves the registers above `V[x]` (R175). -/
theorem reg_of_load_above {x r : Reg} (h : exec (.load x) s = .next t) (hr : x < r) : t.reg r = s.reg r := by
  obtain ⟨rfl, -⟩ := execLoad_next h
  have hout : ¬(0 ≤ r.val ∧ r.val < 0 + (s.MEM.readBytes s.base (x.val + 1)).length) := by
    have hlt : x.val < r.val := hr
    rw [Memory.readBytes_length]
    omega
  exact (setRegsFrom_getElem _ 0 s.V r.val r.isLt).trans (if_neg hout)

theorem keepsRegs_of_load {x : Reg} (h : exec (.load x) s = .next t) :
    KeepsRegsExcept ((List.finRange 16).filter (· ≤ x)) s t := by
  intro r hr
  simp only [List.mem_filter, List.mem_finRange, true_and, decide_eq_true_eq, not_le] at hr
  exact reg_of_load_above h hr

theorem keepsRegs_of_store {l : List Reg} {bytes : List Byte} (h : s.storeAtI bytes = .next t) :
    KeepsRegsExcept l s t := by
  obtain ⟨rfl, -⟩ := storeAtI_next h
  exact keepsRegs_of_V_eq rfl

end Registers

/-- Settles O48: each instruction writes one register, the flag and a result, a block, or none. -/
theorem onlyDestinationRegistersChange : Obligations.OnlyDestinationRegistersChange := by
  unfold Obligations.OnlyDestinationRegistersChange
  intro i s t h
  cases i with
  | drw _ _ _ => exact keepsRegs_of_drw h
  | load _ => exact keepsRegs_of_load h
  | ldVxK _ => exact keepsRegs_of_ldVxK h
  | ldB _ | store _ => exact keepsRegs_of_store h
  | seImm _ _ | sneImm _ _ | seReg _ _ | sneReg _ _ | skp _ | sknp _ => exact keepsRegs_of_skip h
  | ret =>
    obtain ⟨_, -, rfl⟩ := execRet_next h
    exact keepsRegs_of_V_eq rfl
  | call _ =>
    obtain ⟨_, rfl⟩ := execCall_next h
    exact keepsRegs_of_V_eq rfl
  | ldVxDT x | rnd x _ | ldImm x _ | addImm x _ | ldReg x _ | orReg x _ | andReg x _ | xorReg x _ =>
    obtain rfl := Host.Outcome.next.inj h
    exact keepsRegs_setReg x _
  | addReg x _ | subReg x _ | shr x _ | subnReg x _ | shl x _ =>
    obtain rfl := Host.Outcome.next.inj h
    exact keepsRegs_setVF_setReg x _ _
  | cls | jp _ | jpV0 _ | ldI _ | addI _ | ldF _ | ldDTVx _ | ldSTVx _ =>
    obtain rfl := Host.Outcome.next.inj h
    exact keepsRegs_of_V_eq rfl

end Sys2Proof.Machine
end

section
/-! PROOFS. Where an instruction and a cycle stop (60_exceptions.md R230), and what the cycle runs (40_cycle.md). -/

namespace Sys2Proof.Machine

/-! ### The operations that can stop, on each side of their bound -/

section Bounds
variable {s : State}

/-- A stack that is not empty has a top entry. -/
theorem exists_top_of_ne_zero (h : s.SP.val ≠ 0) : ∃ j, j < 16 ∧ s.SP.val = j + 1 := by
  have hle : s.SP.val < 17 := s.SP.isLt
  exact ⟨s.SP.val - 1, by omega, by omega⟩

/-- A stack with no free entry is full. -/
theorem SP_eq_of_not_lt (h : ¬ s.SP.val < Config.stackDepth) : s.SP.val = 16 :=
  Nat.le_antisymm (Nat.le_of_lt_succ s.SP.isLt) (Nat.not_lt.mp h)

/-- A return with an entry in use pops it (R122). -/
theorem exec_ret_of_succ {j : Nat} (hj : j < 16) (hSP : s.SP.val = j + 1) : exec .ret s =
    .next (({ s with SP := ⟨j, Nat.lt_succ_of_lt hj⟩ } : State).jumpTo s.STACK[j]) := by
  rw [exec_ret, execRet]
  rcases pop_eq s with ⟨hlt, -, e⟩ | ⟨h0, -⟩
  · simp only [e, hSP, Nat.add_sub_cancel]
  · omega

/-- A return with no entry in use stops (R121, R122). -/
theorem exec_ret_of_empty (h : s.SP.val = 0) : exec .ret s = .fault (.stackUnderflow s.pc) := by
  rw [exec_ret, execRet]
  rcases pop_eq s with ⟨-, hne, -⟩ | ⟨-, e⟩
  · exact absurd h hne
  · rw [e]

/-- A store that fits writes the bytes at `I` (R173, R174). -/
theorem storeAtI_of_le {bytes : List Byte} (h : s.base + bytes.length ≤ 4096) :
    s.storeAtI bytes = .next { s with MEM := s.MEM.writeBytes s.base bytes }.advance := by
  rw [State.storeAtI]
  rcases memWrite_eq s.MEM s.base bytes with ⟨e, -⟩ | ⟨-, -, hout⟩
  · rw [e]
  · omega

/-- A store that does not fit stops (R173, R174). -/
theorem storeAtI_of_gt {bytes : List Byte} (hne : bytes.length ≠ 0) (h : 4096 < s.base + bytes.length) :
    s.storeAtI bytes = .fault (.outOfBounds s.pc (max s.base 4096)) := by
  rw [State.storeAtI]
  rcases memWrite_eq s.MEM s.base bytes with ⟨-, hin⟩ | ⟨e, -⟩
  · omega
  · rw [e]
    rfl

/-- A load that fits fills the registers from `I` (R175). -/
theorem exec_load_of_le {x : Reg} (h : s.base + x.val + 1 ≤ 4096) : exec (.load x) s =
    .next { s with V := setRegsFrom (s.MEM.readBytes s.base (x.val + 1)) 0 s.V }.advance := by
  rw [exec_load, execLoad]
  rcases memRead_eq s.MEM s.base (x.val + 1) with ⟨e, -⟩ | ⟨-, -, hout⟩
  · rw [e]
  · omega

/-- A load that does not fit stops (R175). -/
theorem exec_load_of_gt {x : Reg} (h : 4096 < s.base + x.val + 1) :
    exec (.load x) s = .fault (.outOfBounds s.pc (max s.base 4096)) := by
  rw [exec_load, execLoad]
  rcases memRead_eq s.MEM s.base (x.val + 1) with ⟨-, hin⟩ | ⟨e, -⟩
  · omega
  · rw [e]
    rfl

/-- A sprite in memory is drawn (R192). -/
theorem exec_drw_of_le {x y : Reg} {n : Nat} (h : n = 0 ∨ s.base + n ≤ 4096) :
    ∃ t, exec (.drw x y n) s = .next t := by
  rw [exec_drw, execDrw]
  rcases memRead_eq (s.setVF 0).MEM (s.setVF 0).base n with ⟨e, -⟩ | ⟨-, hne, hout⟩
  · exact ⟨_, by rw [e]⟩
  · exact absurd h (not_or.mpr ⟨hne, Nat.not_le.mpr hout⟩)

/-- A sprite that passes the end of memory stops (R192). -/
theorem exec_drw_of_gt {x y : Reg} {n : Nat} (hne : 1 ≤ n) (h : 4096 < s.base + n) :
    exec (.drw x y n) s = .fault (.outOfBounds s.pc (max s.base 4096)) := by
  rw [exec_drw, execDrw]
  rcases memRead_eq (s.setVF 0).MEM (s.setVF 0).base n with ⟨-, h0 | hin⟩ | ⟨e, -⟩
  · omega
  · exact absurd h (Nat.not_lt.mpr hin)
  · rw [e]
    rfl

end Bounds

/-! ### Which instruction stops, and with which error -/

/-- The fatal errors a cycle at `pc` can raise, by kind (R230). -/
inductive RaisedAt (pc : Word) : FaultKind → Fault → Prop
  /-- A memory access past the last cell. -/
  | outOfBounds (address : Nat) : RaisedAt pc .outOfBounds (.outOfBounds pc address)
  /-- A call on a full stack. -/
  | stackOverflow : RaisedAt pc .stackOverflow (.stackOverflow pc)
  /-- A return on an empty stack. -/
  | stackUnderflow : RaisedAt pc .stackUnderflow (.stackUnderflow pc)

/-- The latch records the kind and the `pc` of the cycle (R33). -/
theorem RaisedAt.record_eq {pc : Word} {k : FaultKind} {f : Fault} (h : RaisedAt pc k f) :
    f.record = ⟨k, some pc⟩ := by
  cases h <;> rfl

theorem RaisedAt.kind_mem {pc : Word} {k : FaultKind} {f : Fault} (h : RaisedAt pc k f) :
    k ∈ [FaultKind.outOfBounds, .stackOverflow, .stackUnderflow] := by
  cases h <;> decide

/-- Outside the table of R230 an instruction completes. -/
theorem exec_next_of_not_faultCondition {i : Instr} {s : State} (h : ¬ FaultCondition s i) :
    ∃ t, exec i s = .next t := by
  cases i with
  | ret =>
    obtain ⟨j, hj, hSP⟩ := exists_top_of_ne_zero h
    exact ⟨_, exec_ret_of_succ hj hSP⟩
  | call a => exact ⟨_, exec_call_of_lt a (Decidable.not_not.mp fun hfull => h (SP_eq_of_not_lt hfull))⟩
  | drw _ _ n =>
    refine exec_drw_of_le (Decidable.or_iff_not_imp_left.mpr fun hne => Nat.not_lt.mp fun hout => ?_)
    exact h ⟨Nat.one_le_iff_ne_zero.mpr hne, hout⟩
  | ldB _ => exact ⟨_, storeAtI_of_le (Nat.not_lt.mp h)⟩
  | store x => exact ⟨_, storeAtI_of_le (by rw [regsUpTo_length]; exact Nat.not_lt.mp h)⟩
  | load _ => exact ⟨_, exec_load_of_le (Nat.not_lt.mp h)⟩
  | cls | jp _ | seImm _ _ | sneImm _ _ | seReg _ _ | sneReg _ _ | ldI _ | jpV0 _ | ldImm _ _ | addImm _ _ | rnd _ _
  | ldReg _ _ | orReg _ _ | andReg _ _ | xorReg _ _ | addReg _ _ | subReg _ _ | shr _ _ | subnReg _ _ | shl _ _
  | skp _ | sknp _ | ldVxDT _ | ldVxK _ | ldDTVx _ | ldSTVx _ | addI _ | ldF _ => exact ⟨_, rfl⟩

/-- Inside the table of R230 an instruction stops with the listed error. -/
theorem exec_fault_of_faultCondition {i : Instr} {s : State} (h : FaultCondition s i) :
    ∃ f, exec i s = .fault f ∧ RaisedAt s.pc (faultKind i) f := by
  cases i with
  | ret => exact ⟨_, exec_ret_of_empty h, .stackUnderflow⟩
  | call a => exact ⟨_, exec_call_of_full a h, .stackOverflow⟩
  | drw _ _ n =>
    obtain ⟨hne, hout⟩ := h
    exact ⟨_, exec_drw_of_gt hne hout, .outOfBounds _⟩
  | ldB _ => exact ⟨_, storeAtI_of_gt (Nat.succ_ne_zero _) h, .outOfBounds _⟩
  | store x =>
    refine ⟨_, storeAtI_of_gt ?_ ?_, .outOfBounds _⟩
    · rw [regsUpTo_length]
      exact Nat.succ_ne_zero _
    · rw [regsUpTo_length]
      exact h
  | load _ => exact ⟨_, exec_load_of_gt h, .outOfBounds _⟩
  | cls | jp _ | seImm _ _ | sneImm _ _ | seReg _ _ | sneReg _ _ | ldI _ | jpV0 _ | ldImm _ _ | addImm _ _ | rnd _ _
  | ldReg _ _ | orReg _ _ | andReg _ _ | xorReg _ _ | addReg _ _ | subReg _ _ | shr _ _ | subnReg _ _ | shl _ _
  | skp _ | sknp _ | ldVxDT _ | ldVxK _ | ldDTVx _ | ldSTVx _ | addI _ | ldF _ => exact h.elim

/-- Settles O12: the table of R230 is the list of bounds at which the shared operations stop. -/
theorem instructionsStopExactlyWhereListed : Obligations.InstructionsStopExactlyWhereListed := by
  unfold Obligations.InstructionsStopExactlyWhereListed
  refine fun i s => ⟨exec_next_of_not_faultCondition, fun h => ?_⟩
  obtain ⟨f, hf, hraised⟩ := exec_fault_of_faultCondition h
  exact ⟨f, hf, hraised.record_eq⟩

/-! ### The cycle of a running core -/

/-- A word runs to a next state or to an error of its cycle. -/
theorem runWord_answers (w : Word) (s : State) :
    (∃ t, runWord w s = .next t) ∨ ∃ k f, runWord w s = .fault f ∧ RaisedAt s.pc k f := by
  cases hd : decodeWord w with
  | error r => exact .inl ⟨_, runWord_of_rejected s hd⟩
  | ok i =>
    rw [runWord_of_decoded s hd]
    by_cases hfault : FaultCondition s i
    · obtain ⟨f, hf, hraised⟩ := exec_fault_of_faultCondition hfault
      exact .inr ⟨_, f, hf, hraised⟩
    · exact .inl (exec_next_of_not_faultCondition hfault)

/-- A running core steps to a next state or to an error of this cycle. -/
theorem cycle_answers {s : State} (period : Nat) (hF : s.FAULT = none) :
    (∃ t, cycle period s = .next t) ∨ ∃ k f, cycle period s = .fault f ∧ RaisedAt s.pc k f := by
  by_cases hpc : s.pc.toNat ≤ 4094
  · rw [cycle_of_le period hF hpc]
    rcases runWord_answers s.wordAtPc s with ⟨t, ht⟩ | ⟨k, f, hf, hraised⟩
    · exact .inl ⟨_, by rw [ht]; rfl⟩
    · exact .inr ⟨k, f, by rw [hf]; rfl, hraised⟩
  · exact .inr ⟨_, _, cycle_of_ge period hF (by omega), .outOfBounds _⟩

/-- Settles O13: the fetch and the word that runs stop with an error of the cycle only. -/
theorem stepIsNeverStuck : Obligations.StepIsNeverStuck := by
  unfold Obligations.StepIsNeverStuck
  intro s hF
  rcases cycle_answers Config.cyclesPerTick hF with hnext | ⟨k, f, hf, hraised⟩
  · exact .inl hnext
  · cases hraised with
    | outOfBounds a => exact .inr (.inl ⟨a, hf⟩)
    | stackOverflow => exact .inr (.inr (.inl hf))
    | stackUnderflow => exact .inr (.inr (.inr hf))

/-- Settles O11: the first event sets the latch, and the latched core is a fixed point of every later one. -/
theorem fatalErrorStaysLatched : Obligations.FatalErrorStaysLatched := by
  unfold Obligations.FatalErrorStaysLatched
  intro period k s f hF hf
  have hfirst := afterStep_of_fault hF hf
  obtain ⟨-, hlater⟩ := faultedCoreTakesNoStep period { s with FAULT := some f.record } f.record rfl
  rcases cycle_answers period hF with ⟨t, ht⟩ | ⟨kind, g, hg, hraised⟩
  · rw [hf] at ht
    exact nomatch ht
  · obtain rfl : f = g := Host.Outcome.fault.inj (hf.symm.trans hg)
    refine ⟨?_, ?_, ?_⟩
    · rw [Function.iterate_succ_apply, hfirst, Function.iterate_fixed hlater k]
    · rw [hraised.record_eq]
    · rw [hraised.record_eq]
      exact hraised.kind_mem

/-! ### What the cycle runs -/

/-- The fault of an instruction is the fault of its cycle (R108). -/
theorem cycle_of_exec_fault {s : State} {i : Instr} {f : Fault} (period : Nat) (hF : s.FAULT = none)
    (hle : s.pc.toNat ≤ 4094) (hd : decodeWord s.wordAtPc = .ok i) (h : exec i s = .fault f) :
    cycle period s = .fault f := by
  rw [cycle_of_le period hF hle, runWord_of_decoded s hd, h]
  rfl

/-- Settles O6: the two bytes at `pc` are the word the cycle decodes. -/
theorem stepRunsTheDecodedInstruction : Obligations.StepRunsTheDecodedInstruction := by
  unfold Obligations.StepRunsTheDecodedInstruction
  intro s i hF hle hd
  exact ⟨fun _ => cycle_of_exec_next _ hF hle hd, fun _ => cycle_of_exec_fault _ hF hle hd⟩

section Placed
variable {s : State} {w : Word}

/-- The host's table word of 16 bits is placed as it is. -/
theorem withFetchWord_toNat (s : State) (w : Word) : s.withFetchWord 16 w.toNat = s.placeWord w := by
  rw [State.withFetchWord, Nat.mod_eq_of_lt w.isLt, BitVec.ofNat_toNat, BitVec.setWidth_eq]

/-- A word placed where both its cells exist is written there (R12, R52). -/
theorem placeWord_of_le (h : s.pc.toNat ≤ 4094) :
    s.placeWord w = { s with MEM := s.MEM.writeBytes s.pc.toNat (bytesOfWord w) } := by
  rw [State.placeWord, if_pos ((inRange_iff _ _).mpr (by omega))]

/-- The word placed is the word fetched (R52). -/
theorem wordAtPc_placeWord (hwf : s.MEM.wf) (h : s.pc.toNat ≤ 4094) : (s.placeWord w).wordAtPc = w := by
  have ⟨hrising, _⟩ := hwf
  have hread := fun b => Memory.read_writeBytes (bytesOfWord w) s.MEM s.pc.toNat b hrising
  rw [placeWord_of_le h]
  unfold State.wordAtPc State.byteAt
  rw [hread, hread]
  simp [bytesOfWord]

end Placed

/-- Settles O7: the two bytes written at `pc` are the word fetched, which decodes to the instruction. -/
theorem placedInstructionIsTheOneThatRuns : Obligations.PlacedInstructionIsTheOneThatRuns := by
  unfold Obligations.PlacedInstructionIsTheOneThatRuns
  intro s i hi hwf hF hle
  rw [withFetchWord_toNat]
  have hplaced : s.placeWord (encode i) = _ := placeWord_of_le hle
  refine ⟨?_, by rw [hplaced], fun b hout => ?_⟩
  · have hd : decodeWord (s.placeWord (encode i)).wordAtPc = .ok i := by
      rw [wordAtPc_placeWord hwf hle, decodeWord_encode i hi]
    rw [step, cycle_of_le _ (by rw [hplaced]; exact hF) (by rw [hplaced]; exact hle), runWord_of_decoded _ hd]
  · rw [hplaced]
    exact Memory.read_writeBytes_outside s.MEM hout

end Sys2Proof.Machine
end

section
/-! PROOFS. The invariant of a running core (10_state.md R23, R25, R28, R32, R33; 95_test_vectors.md Part 4 property 2):
reset meets it and every step keeps it. -/

namespace Sys2Proof.Machine

/-! ### Reset -/

/-- The font fits below the end of memory, so memory after reset is canonical. -/
theorem resetWith_wf (font : Config.Font) : (State.resetWith font).MEM.wf := by
  have hempty : Memory.wf [] := by decide
  have hfits : 0 + font.toList.length ≤ Config.memSize := by
    rw [Vector.length_toList]
    decide
  exact Memory.wf_writeBytes font.toList [] 0 hempty hfits

theorem resetWith_inv (font : Config.Font) {period : Nat} (h : 0 < period) : (State.resetWith font).Inv period where
  mem_canonical := resetWith_wf font
  index_in_memory := Nat.zero_le _
  pc_bounded := by
    rw [resetWith_pc]
    decide
  return_addresses_bounded := fun j _ hj => absurd hj (Nat.not_lt_zero j)
  batch_counter_bounded := h
  not_faulted := rfl

/-- Settles O18: the empty stack has no return address to bound, and the default reset is that of the default font. -/
theorem resetMeetsTheInvariant : Obligations.ResetMeetsTheInvariant := by
  unfold Obligations.ResetMeetsTheInvariant
  refine ⟨fun font _ => resetWith_inv font, ?_⟩
  rw [← resetWith_default]
  exact resetWith_inv Config.font (by decide)

/-- Settles O20: memory reads as its reset content, and every other field is a constant. -/
theorem resetLeavesTheListedValues : Obligations.ResetLeavesTheListedValues := by
  unfold Obligations.ResetLeavesTheListedValues
  refine ⟨fun font => ⟨rfl, rfl, fun a ha => ?_, fun a ha => ?_, fun r => ?_, rfl, rfl, rfl, fun r c => ?_, rfl, rfl⟩,
    resetWith_default, rfl⟩
  · rw [resetWith_byteAt, Memory.resetContent, dif_pos ha]
  · rw [resetWith_byteAt, Memory.resetContent, dif_neg (Nat.not_lt.mpr ha)]
  · exact Vector.getElem_replicate r.isLt
  · exact pixel_dark r c

/-! ### Each part of the invariant under an instruction -/

section Parts
variable {s t : State} {i : Instr}

theorem advance_pc_toNat (h : s.pc.toNat ≤ 4094) : (s.pc + 2).toNat = s.pc.toNat + 2 := by
  bv_omega

/-- A block that an instruction stores fits, so memory stays canonical (R58). -/
theorem wf_of_exec (hwf : s.MEM.wf) (h : exec i s = .next t) : t.MEM.wf := by
  rcases MEM_of_exec h with hM | ⟨bytes, hM, hlen, -, hfits⟩
  · rw [hM]
    exact hwf
  · rw [hM]
    exact Memory.wf_writeBytes bytes s.MEM s.base hwf (hlen ▸ hfits)

/-- The three writers of `I` write a 12-bit address, a sum modulo 4096 and the address of a glyph (R170 to R172). -/
theorem index_le_of_exec (hI : s.I.toNat ≤ 4095) (h : exec i s = .next t) : t.I.toNat ≤ 4095 := by
  cases exec_writes h with
  | index _ hi =>
    rcases hi with ⟨a, rfl⟩ | ⟨x, rfl⟩ | ⟨x, rfl⟩
    · obtain rfl := Host.Outcome.next.inj h
      have hval : (addressImm a).toNat = a.toNat := addressImm_toNat a
      exact hval ▸ Nat.le_of_lt_succ a.isLt
    · obtain rfl := Host.Outcome.next.inj h
      have hval := wrap12_toNat s.I (s.reg x)
      exact hval ▸ Nat.le_of_lt_succ (Nat.mod_lt _ (by decide))
    · obtain rfl := Host.Outcome.next.inj h
      have hval := glyphAddress_toNat (s.reg x)
      show (glyphAddress (s.reg x)).toNat ≤ 4095
      omega
  | registers ht | timers ht | memory _ ht _ _ _ | display ht _ | stack ht _ =>
    rw [ht]
    exact hI

/-- From a fetchable `pc` the furthest address is that after a taken skip (R23, R130). -/
theorem pc_le_of_exec (hpc : s.pc.toNat ≤ 4094)
    (hlive : ∀ (j : Nat) (h : j < Config.stackDepth), j < s.SP.val → (s.STACK[j]).toNat ≤ 4096)
    (h : exec i s = .next t) : t.pc.toNat ≤ 4098 := by
  cases i
  case ret =>
    obtain ⟨hs, hne, rfl⟩ := execRet_next h
    have htop := hlive (s.SP.val - 1) hs (by omega)
    exact htop.trans (by decide)
  case jp a =>
    rw [pc_of_jp h, addressImm_toNat]
    omega
  case call a =>
    rw [pc_of_call h, addressImm_toNat]
    omega
  case jpV0 a =>
    rw [pc_of_jpV0 h, wrap12_toNat]
    omega
  case ldVxK x =>
    by_cases hK : s.KEYS = 0
    · rw [pc_of_ldVxK_waiting hK h]
      omega
    · rw [pc_of_ldVxK_pressed hK h, advance_pc_toNat hpc]
      omega
  all_goals
    rcases pc_of_not_override h nofun nofun nofun nofun (.inl nofun) with e | ⟨e, -⟩
    · rw [e, advance_pc_toNat hpc]
      omega
    · rw [e]
      bv_omega

/-- A call pushes the address after a fetchable `pc`; a return and every other instruction push nothing (R23). -/
theorem return_addresses_of_exec (hpc : s.pc.toNat ≤ 4094)
    (hlive : ∀ (j : Nat) (h : j < Config.stackDepth), j < s.SP.val → (s.STACK[j]).toNat ≤ 4096)
    (h : exec i s = .next t) (j : Nat) (hj : j < Config.stackDepth) (hjt : j < t.SP.val) :
    (t.STACK[j]).toNat ≤ 4096 := by
  by_cases hret : i = .ret
  · subst hret
    obtain ⟨hs, -, rfl⟩ := execRet_next h
    have hjt : j < s.SP.val - 1 := hjt
    exact hlive j hj (by omega)
  · by_cases hcall : ∃ a, i = .call a
    · obtain ⟨a, rfl⟩ := hcall
      obtain ⟨hs, rfl⟩ := execCall_next h
      have hjt : j < s.SP.val + 1 := hjt
      show ((s.STACK.set s.SP.val s.returnAddress hs)[j]).toNat ≤ 4096
      rw [Vector.getElem_set]
      split
      · rw [State.returnAddress, advance_pc_toNat hpc]
        omega
      · exact hlive j hj (by omega)
    · obtain ⟨hSP, hSTACK⟩ := keepsStack_of_exec h hret (not_exists.mp hcall)
      simp only [hSTACK]
      exact hlive j hj (hSP ▸ hjt)

end Parts

/-! ### A cycle keeps the invariant -/

section Keeps
variable {period : Nat} {s t : State}

theorem inv_of_exec {i : Instr} (hinv : s.Inv period) (hpc : s.pc.toNat ≤ 4094) (h : exec i s = .next t) :
    t.Inv period := by
  obtain ⟨hwf, hI, -, hlive, hCYC, hFAULT⟩ := hinv
  obtain ⟨htF, htC, -⟩ := instructionsKeepThePlatformState i s t h
  exact ⟨wf_of_exec hwf h, index_le_of_exec hI h, pc_le_of_exec hpc hlive h, return_addresses_of_exec hpc hlive h,
    htC ▸ hCYC, htF ▸ hFAULT⟩

/-- The default advance from a fetchable `pc` (R106). -/
theorem inv_advance (hinv : s.Inv period) (hpc : s.pc.toNat ≤ 4094) : s.advance.Inv period := by
  obtain ⟨hwf, hI, -, hlive, hCYC, hFAULT⟩ := hinv
  refine ⟨hwf, hI, ?_, hlive, hCYC, hFAULT⟩
  rw [advance_pc, advance_pc_toNat hpc]
  omega

theorem inv_of_runWord {w : Word} (hinv : s.Inv period) (hpc : s.pc.toNat ≤ 4094) (h : runWord w s = .next t) :
    t.Inv period := by
  cases hd : decodeWord w with
  | ok i =>
    rw [runWord_of_decoded s hd] at h
    exact inv_of_exec hinv hpc h
  | error r =>
    rw [runWord_of_rejected s hd] at h
    obtain rfl := Host.Outcome.next.inj h
    exact inv_advance hinv hpc

/-- The count of a cycle stays below the batch size, and sampling touches nothing the invariant speaks of (R32). -/
theorem inv_finish (hperiod : 0 < period) (hinv : s.Inv period) : (s.countCycle period).sampleInputs.Inv period := by
  obtain ⟨hwf, hI, hpc, hlive, hCYC, hFAULT⟩ := hinv
  refine ⟨by simpa using hwf, by simpa using hI, by simpa using hpc, by simpa using hlive, ?_, by simpa using hFAULT⟩
  rw [sampleInputs_CYC, countCycle_CYC]
  split <;> omega

/-- One cycle keeps the invariant at every batch size. -/
theorem inv_of_cycle (hperiod : 0 < period) (hinv : s.Inv period) (h : cycle period s = .next t) : t.Inv period := by
  rcases cycle_eq period s with ⟨r, -, e⟩ | ⟨-, -, e⟩ | ⟨-, hpc, e⟩ <;> rw [e] at h
  · exact nomatch h
  · exact nomatch h
  · obtain ⟨u, hu, rfl⟩ := finishCycle_next h
    exact inv_finish hperiod (inv_of_runWord hinv hpc hu)

end Keeps

/-- Settles O19: each part of the invariant is kept by the word that runs, from a `pc` that could be fetched, and by the
end of the cycle. -/
theorem stepKeepsTheInvariant : Obligations.StepKeepsTheInvariant := by
  unfold Obligations.StepKeepsTheInvariant
  exact ⟨fun _ _ _ => inv_of_cycle, fun _ _ => inv_of_cycle (by decide)⟩

end Sys2Proof.Machine
end

section
/-! PROOFS. What cannot be learned: one lemma says that an instruction commutes with any change of the stack entries,
the sound timer, the keys and the draw, each but for the instructions that use it. -/

namespace Sys2Proof.Machine

/-! ### A change of the parts few instructions use -/

section Unused
variable (stack : Vector Word Config.stackDepth → Vector Word Config.stackDepth) (sound : Byte → Byte)
  (keys : BitVec 16 → BitVec 16) (draw : Byte → Byte)

/-- `s` with its stack entries, sound timer, keys and draw changed. -/
def State.mapUnused (s : State) : State :=
  { s with STACK := stack s.STACK, ST := sound s.ST, KEYS := keys s.KEYS, RND := draw s.RND }

theorem skipIf_mapUnused (s : State) (c : Bool) :
    (s.mapUnused stack sound keys draw).skipIf c = (s.skipIf c).mapUnused stack sound keys draw := by
  cases c <;> rfl

/-- A skip on a condition that does not see the change. -/
theorem skip_mapUnused (s : State) (c : Bool) :
    (.next ((s.mapUnused stack sound keys draw).skipIf c).advance : Result) =
      mapNext (State.mapUnused stack sound keys draw) (.next (s.skipIf c).advance) := by
  rw [skipIf_mapUnused]
  rfl

theorem storeAtI_mapUnused (s : State) (bytes : List Byte) :
    (s.mapUnused stack sound keys draw).storeAtI bytes =
      mapNext (State.mapUnused stack sound keys draw) (s.storeAtI bytes) := by
  have hmem : memWrite (s.mapUnused stack sound keys draw).MEM (s.mapUnused stack sound keys draw).base bytes =
    memWrite s.MEM s.base bytes := rfl
  rw [State.storeAtI, State.storeAtI, hmem]
  cases memWrite s.MEM s.base bytes <;> rfl

theorem exec_load_mapUnused (s : State) (x : Reg) :
    exec (.load x) (s.mapUnused stack sound keys draw) =
      mapNext (State.mapUnused stack sound keys draw) (exec (.load x) s) := by
  have hmem : memRead (s.mapUnused stack sound keys draw).MEM (s.mapUnused stack sound keys draw).base (x.val + 1) =
    memRead s.MEM s.base (x.val + 1) := rfl
  rw [exec_load, exec_load, execLoad, execLoad, hmem]
  cases memRead s.MEM s.base (x.val + 1) <;> rfl

theorem exec_drw_mapUnused (s : State) (x y : Reg) (n : Nat) :
    exec (.drw x y n) (s.mapUnused stack sound keys draw) =
      mapNext (State.mapUnused stack sound keys draw) (exec (.drw x y n) s) := by
  have hmem : memRead ((s.mapUnused stack sound keys draw).setVF 0).MEM
      ((s.mapUnused stack sound keys draw).setVF 0).base n = memRead (s.setVF 0).MEM (s.setVF 0).base n := rfl
  simp only [exec_drw, execDrw, hmem]
  cases memRead (s.setVF 0).MEM (s.setVF 0).base n <;> rfl

theorem exec_ret_mapUnused (s : State) :
    exec .ret (s.mapUnused id sound keys draw) = mapNext (State.mapUnused id sound keys draw) (exec .ret s) := by
  by_cases h : s.SP.val = 0
  · rw [exec_ret_of_empty h, exec_ret_of_empty (s := s.mapUnused id sound keys draw) h]
    rfl
  · obtain ⟨j, hj, hSP⟩ := exists_top_of_ne_zero h
    rw [exec_ret_of_succ hj hSP, exec_ret_of_succ (s := s.mapUnused id sound keys draw) hj hSP]
    rfl

theorem exec_call_mapUnused (s : State) (a : Addr12) :
    exec (.call a) (s.mapUnused id sound keys draw) =
      mapNext (State.mapUnused id sound keys draw) (exec (.call a) s) := by
  by_cases h : s.SP.val < Config.stackDepth
  · rw [exec_call_of_lt a h, exec_call_of_lt (s := s.mapUnused id sound keys draw) a h]
    rfl
  · have hfull := SP_eq_of_not_lt h
    rw [exec_call_of_full a hfull, exec_call_of_full (s := s.mapUnused id sound keys draw) a hfull]
    rfl

theorem exec_ldVxK_mapUnused (s : State) (x : Reg) :
    exec (.ldVxK x) (s.mapUnused stack sound id draw) =
      mapNext (State.mapUnused stack sound id draw) (exec (.ldVxK x) s) := by
  have hkeys : (s.mapUnused stack sound id draw).firstKey = s.firstKey := rfl
  rw [exec_ldVxK, exec_ldVxK, execLdVxK, execLdVxK, hkeys]
  cases s.firstKey <;> rfl

/-- An instruction ends the same whatever the parts it does not use hold: the stack is for call and return, `ST` for
`Fx18`, the keys for `Ex9E`, `ExA1` and `Fx0A`, the draw for `Cxkk`. -/
theorem exec_mapUnused (i : Instr) (s : State) (hstack : stack = id ∨ i ≠ .ret ∧ ∀ a, i ≠ .call a)
    (hsound : sound = id ∨ ∀ x, i ≠ .ldSTVx x)
    (hkeys : keys = id ∨ (∀ x, i ≠ .skp x) ∧ (∀ x, i ≠ .sknp x) ∧ ∀ x, i ≠ .ldVxK x)
    (hdraw : draw = id ∨ ∀ x kk, i ≠ .rnd x kk) :
    exec i (s.mapUnused stack sound keys draw) = mapNext (State.mapUnused stack sound keys draw) (exec i s) := by
  cases i with
  | ret =>
    obtain rfl := hstack.resolve_right fun ⟨hret, _⟩ => hret rfl
    exact exec_ret_mapUnused sound keys draw s
  | call a =>
    obtain rfl := hstack.resolve_right fun ⟨_, hcall⟩ => hcall a rfl
    exact exec_call_mapUnused sound keys draw s a
  | ldSTVx x =>
    obtain rfl := hsound.resolve_right fun hST => hST x rfl
    rfl
  | skp x =>
    obtain rfl := hkeys.resolve_right fun ⟨hskp, _⟩ => hskp x rfl
    exact skip_mapUnused stack sound id draw s _
  | sknp x =>
    obtain rfl := hkeys.resolve_right fun ⟨_, hsknp, _⟩ => hsknp x rfl
    exact skip_mapUnused stack sound id draw s _
  | ldVxK x =>
    obtain rfl := hkeys.resolve_right fun ⟨_, _, hwait⟩ => hwait x rfl
    exact exec_ldVxK_mapUnused stack sound draw s x
  | rnd x kk =>
    obtain rfl := hdraw.resolve_right fun hrnd => hrnd x kk rfl
    rfl
  | seImm _ _ | sneImm _ _ | seReg _ _ | sneReg _ _ => exact skip_mapUnused stack sound keys draw s _
  | drw x y n => exact exec_drw_mapUnused stack sound keys draw s x y n
  | ldB _ | store _ => exact storeAtI_mapUnused stack sound keys draw s _
  | load x => exact exec_load_mapUnused stack sound keys draw s x
  | cls | jp _ | jpV0 _ | ldI _ | addI _ | ldF _ | ldVxDT _ | ldDTVx _ | ldImm _ _ | addImm _ _ | ldReg _ _
  | orReg _ _ | andReg _ _ | xorReg _ _ | addReg _ _ | subReg _ _ | shr _ _ | subnReg _ _ | shl _ _ => rfl

end Unused

/-- Settles O55: another key snapshot is a change of the keys alone. -/
theorem onlyKeyInstructionsDependOnTheKeys : Obligations.OnlyKeyInstructionsDependOnTheKeys := by
  unfold Obligations.OnlyKeyInstructionsDependOnTheKeys
  intro i s keys hskp hsknp hwait
  exact exec_mapUnused id id (fun _ => keys) id i s (.inl rfl) (.inl rfl) (.inr ⟨hskp, hsknp, hwait⟩) (.inl rfl)

/-- Settles O56: another random byte is a change of the draw alone. -/
theorem onlyRndDependsOnTheDraw : Obligations.OnlyRndDependsOnTheDraw := by
  unfold Obligations.OnlyRndDependsOnTheDraw
  intro i s draw hrnd
  exact exec_mapUnused id id id (fun _ => draw) i s (.inl rfl) (.inl rfl) (.inl rfl) (.inr hrnd)

/-- Settles O57: another value of `ST` is a change of the sound timer alone. -/
theorem soundTimerIsNeverRead : Obligations.SoundTimerIsNeverRead := by
  unfold Obligations.SoundTimerIsNeverRead
  intro i s v hST
  exact exec_mapUnused id (fun _ => v) id id i s (.inl rfl) (.inr hST) (.inl rfl) (.inl rfl)

/-! ### Dead stack entries -/

section DeadStack
variable {s t : State} {stk : Vector Word Config.stackDepth}

/-- The entries `stk` agree with those of `s` below its `SP` (R28). -/
def LiveEntriesAgree (s : State) (stk : Vector Word Config.stackDepth) : Prop :=
  ∀ (j : Nat) (h : j < Config.stackDepth), j < s.SP.val → stk[j] = s.STACK[j]

theorem alike_ret (hlive : LiveEntriesAgree s stk) :
    OutcomesAlike (exec .ret s) (exec .ret { s with STACK := stk }) := by
  by_cases h : s.SP.val = 0
  · rw [exec_ret_of_empty h, exec_ret_of_empty (s := { s with STACK := stk }) h]
    exact rfl
  · obtain ⟨j, hj, hSP⟩ := exists_top_of_ne_zero h
    rw [exec_ret_of_succ hj hSP, exec_ret_of_succ (s := { s with STACK := stk }) hj hSP]
    simp only [hlive j hj (by omega)]
    refine ⟨rfl, fun k hk hkj => ?_⟩
    have hkj : k < j := hkj
    exact hlive k hk (by omega)

theorem alike_call (a : Addr12) (hlive : LiveEntriesAgree s stk) :
    OutcomesAlike (exec (.call a) s) (exec (.call a) { s with STACK := stk }) := by
  by_cases h : s.SP.val < Config.stackDepth
  · rw [exec_call_of_lt a h, exec_call_of_lt (s := { s with STACK := stk }) a h]
    refine ⟨rfl, fun k hk hkSP => ?_⟩
    have hkSP : k < s.SP.val + 1 := hkSP
    show (stk.set s.SP.val s.returnAddress h)[k] = (s.STACK.set s.SP.val s.returnAddress h)[k]
    rw [Vector.getElem_set, Vector.getElem_set]
    split
    · rfl
    · exact hlive k hk (by omega)
  · have hfull := SP_eq_of_not_lt h
    rw [exec_call_of_full a hfull, exec_call_of_full (s := { s with STACK := stk }) a hfull]
    exact rfl

/-- An instruction that is no call or return keeps the entries, live and dead, in both states. -/
theorem alike_of_keepsStack {i : Instr} (hret : i ≠ .ret) (hcall : ∀ a, i ≠ .call a) (hlive : LiveEntriesAgree s stk) :
    OutcomesAlike (exec i s) (exec i { s with STACK := stk }) := by
  have hsame : exec i { s with STACK := stk } = mapNext (fun u => { u with STACK := stk }) (exec i s) :=
    exec_mapUnused (fun _ => stk) id id id i s (.inr ⟨hret, hcall⟩) (.inl rfl) (.inl rfl) (.inl rfl)
  rw [hsame]
  cases hu : exec i s with
  | next u =>
    obtain ⟨hSP, hSTACK⟩ := keepsStack_of_exec hu hret hcall
    refine ⟨rfl, fun j hj hju => ?_⟩
    simp only [hSTACK]
    exact hlive j hj (hSP ▸ hju)
  | fault f => exact rfl
  | refused r => exact rfl

theorem alike_exec (i : Instr) (hlive : LiveEntriesAgree s stk) :
    OutcomesAlike (exec i s) (exec i { s with STACK := stk }) := by
  by_cases hret : i = .ret
  · subst hret
    exact alike_ret hlive
  · by_cases hcall : ∃ a, i = .call a
    · obtain ⟨a, rfl⟩ := hcall
      exact alike_call a hlive
    · exact alike_of_keepsStack hret (not_exists.mp hcall) hlive

theorem alike_runWord (w : Word) (hlive : LiveEntriesAgree s stk) :
    OutcomesAlike (runWord w s) (runWord w { s with STACK := stk }) := by
  cases hd : decodeWord w with
  | ok i =>
    rw [runWord_of_decoded s hd, runWord_of_decoded _ hd]
    exact alike_exec i hlive
  | error r =>
    rw [runWord_of_rejected s hd, runWord_of_rejected _ hd]
    exact ⟨rfl, hlive⟩

/-- The end of a cycle reads no stack entry and writes none. -/
theorem sameButDeadStack_finish (period : Nat) (h : SameButDeadStack s t) :
    SameButDeadStack (s.countCycle period).sampleInputs (t.countCycle period).sampleInputs := by
  obtain ⟨hrest, hlive⟩ := h
  refine ⟨?_, ?_⟩
  · rw [hrest, countCycle_eq, countCycle_eq]
    rfl
  · simpa using hlive

theorem alike_finishCycle (period : Nat) : ∀ {r q : Result}, OutcomesAlike r q →
    OutcomesAlike (finishCycle period r) (finishCycle period q)
  | .next _, .next _, h => sameButDeadStack_finish period h
  | .fault _, .fault _, h => h
  | .refused _, .refused _, h => h

theorem alike_cycle (period : Nat) (hlive : LiveEntriesAgree s stk) :
    OutcomesAlike (cycle period s) (cycle period { s with STACK := stk }) := by
  rcases Option.eq_none_or_eq_some s.FAULT with hF | ⟨r, hF⟩
  · by_cases hpc : s.pc.toNat ≤ 4094
    · rw [cycle_of_le period hF hpc, cycle_of_le (s := { s with STACK := stk }) period hF hpc]
      exact alike_finishCycle period (alike_runWord s.wordAtPc hlive)
    · have hge : 4095 ≤ s.pc.toNat := by omega
      rw [cycle_of_ge period hF hge, cycle_of_ge (s := { s with STACK := stk }) period hF hge]
      exact rfl
  · rw [cycle_of_faulted period hF, cycle_of_faulted (s := { s with STACK := stk }) period hF]
    exact rfl

end DeadStack

/-- Settles O58: the word that runs reads the stack in a return only, and there its top live entry. -/
theorem deadStackEntriesAreNeverRead : Obligations.DeadStackEntriesAreNeverRead := by
  unfold Obligations.DeadStackEntriesAreNeverRead
  intro period s t h
  obtain ⟨hrest, hlive⟩ := h
  rw [hrest]
  exact alike_cycle period hlive

end Sys2Proof.Machine
end

section
/-! PROOFS. The reference schedule (45_keypad_timers.md R223) over one cycle, over a run, and in the rest state of a
jump to itself (70_reset_and_hazards.md R281). -/

namespace Sys2Proof.Machine

/-! ### One cycle -/

/-- A word that runs keeps the latch, the batch counter and the inputs. -/
theorem keepsPlatform_of_runWord {w : Word} {s u : State} (h : runWord w s = .next u) : KeepsPlatform s u := by
  cases hd : decodeWord w with
  | ok i =>
    rw [runWord_of_decoded s hd] at h
    exact instructionsKeepThePlatformState i s u h
  | error r =>
    rw [runWord_of_rejected s hd] at h
    obtain rfl := Host.Outcome.next.inj h
    exact ⟨rfl, rfl, rfl, rfl, rfl⟩

/-- The end of a cycle changes no state of the program. -/
theorem sameProgramState_finish (period : Nat) (s : State) :
    SameProgramState s (s.countCycle period).sampleInputs := by
  simp [SameProgramState]

/-- Settles O15: the end of the cycle counts the state the word left. -/
theorem tickFollowsAFullBatch : Obligations.TickFollowsAFullBatch := by
  unfold Obligations.TickFollowsAFullBatch
  intro period s u hF hle hu
  obtain ⟨huF, huC, -⟩ := keepsPlatform_of_runWord hu
  refine ⟨(u.countCycle period).sampleInputs, ?_, sameProgramState_finish period u, by simp, ?_, huC,
    cycleCounted_finish period rfl rfl rfl⟩
  · rw [cycle_of_le period hF hle, hu]
    rfl
  · rw [sampleInputs_FAULT, countCycle_FAULT, huF, hF]

/-! ### A run -/

/-- One step counts one cycle, modulo the batch size (R108, R223). -/
theorem CYC_of_step {s t : State} (hs : s.CYC < Config.cyclesPerTick) (h : step s = .next t) :
    t.CYC = (s.CYC + 1) % Config.cyclesPerTick := by
  rw [step] at h
  rcases cycle_eq Config.cyclesPerTick s with ⟨r, -, e⟩ | ⟨-, -, e⟩ | ⟨-, -, e⟩ <;> rw [e] at h
  · exact nomatch h
  · exact nomatch h
  · obtain ⟨u, hu, rfl⟩ := finishCycle_next h
    obtain ⟨-, huC, -⟩ := keepsPlatform_of_runWord hu
    rw [sampleInputs_CYC, countCycle_CYC, huC]
    split
    next hfull =>
      have hlast : s.CYC + 1 = Config.cyclesPerTick := Nat.le_antisymm hs hfull
      rw [hlast, Nat.mod_self]
    next hgoesOn => rw [Nat.mod_eq_of_lt (Nat.not_le.mp hgoesOn)]

/-- Settles O16: each step of the run counts one. -/
theorem batchCounterCountsCycles : Obligations.BatchCounterCountsCycles := by
  unfold Obligations.BatchCounterCountsCycles
  intro k
  induction k with
  | zero =>
    intro s t hs h
    obtain rfl := Host.Outcome.next.inj h
    exact (Nat.mod_eq_of_lt hs).symm
  | succ k ih =>
    intro s t hs h
    obtain ⟨u, hu, hrest⟩ := run_succ_next h
    have huC := CYC_of_step hs hu
    have huC_lt : u.CYC < Config.cyclesPerTick := huC ▸ Nat.mod_lt _ (by decide)
    calc t.CYC = (u.CYC + k) % Config.cyclesPerTick := ih u t huC_lt hrest
      _ = (s.CYC + 1 + k) % Config.cyclesPerTick := by rw [huC, Nat.mod_add_mod]
      _ = (s.CYC + (k + 1)) % Config.cyclesPerTick := by rw [Nat.add_assoc, Nat.add_comm 1 k]

/-! ### A jump to itself -/

/-- A running core, within a batch, about to run the jump to `nnn` at `nnn` (R281). -/
structure AtSelfJump (nnn : Addr12) (s : State) : Prop where
  not_faulted : s.FAULT = none
  in_batch : s.CYC < Config.cyclesPerTick
  fetchable : s.pc.toNat ≤ 4094
  target : nnn.toNat = s.pc.toNat
  word : s.wordAtPc = wordNNN 0x1 nnn

section SelfJump
variable {nnn : Addr12} {s : State}

/-- The jump changes nothing, so the step only ends its cycle. -/
theorem AtSelfJump.step_eq (h : AtSelfJump nnn s) :
    step s = .next (s.countCycle Config.cyclesPerTick).sampleInputs := by
  obtain ⟨hF, -, hpc, htarget, hw⟩ := h
  have hd : decodeWord s.wordAtPc = .ok (.jp nnn) := by rw [hw, decodeWord_jp]
  have hself : s.jumpTo (addressImm nnn) = s :=
    jumpTo_eq_self (BitVec.eq_of_toNat_eq ((addressImm_toNat nnn).trans htarget))
  have hexec : exec (.jp nnn) s = .next s := by rw [exec_jp, execJp, hself]
  exact cycle_of_exec_next Config.cyclesPerTick hF hpc hd hexec

/-- The end of the cycle leaves the core at the same jump. -/
theorem AtSelfJump.finish (h : AtSelfJump nnn s) :
    AtSelfJump nnn (s.countCycle Config.cyclesPerTick).sampleInputs := by
  obtain ⟨hF, hC, hpc, htarget, hw⟩ := h
  refine ⟨by simpa using hF, ?_, by simpa using hpc, by simpa using htarget, ?_⟩
  · rw [sampleInputs_CYC, countCycle_CYC]
    split
    · exact Nat.zero_lt_of_lt hC
    · omega
  · rw [← hw]
    simp [State.wordAtPc, State.byteAt]

theorem SameProgramState.trans {s t u : State} (h : SameProgramState s t) (h' : SameProgramState t u) :
    SameProgramState s u := by
  obtain ⟨hV, hI, hSP, hSTACK, hMEM, hFB⟩ := h
  obtain ⟨hV', hI', hSP', hSTACK', hMEM', hFB'⟩ := h'
  exact ⟨hV'.trans hV, hI'.trans hI, hSP'.trans hSP, hSTACK'.trans hSTACK, hMEM'.trans hMEM, hFB'.trans hFB⟩

/-- A timer that lost one at a full batch, after the remaining `k` cycles (R223). -/
theorem timer_after_batches {c t k : Nat} (hc : c < 10) :
    (if 10 ≤ c + 1 then t - 1 else t) - ((if 10 ≤ c + 1 then 0 else c + 1) + k) / 10 = t - (c + (k + 1)) / 10 := by
  split <;> omega

/-- The run from a jump to itself moves the timers and the batch counter only. -/
theorem AtSelfJump.run (k : Nat) : ∀ {s : State}, AtSelfJump nnn s →
    ∃ t, core.run k s = .next t ∧ t.pc = s.pc ∧ SameProgramState s t ∧
      t.DT.toNat = s.DT.toNat - (s.CYC + k) / Config.cyclesPerTick ∧
      t.ST.toNat = s.ST.toNat - (s.CYC + k) / Config.cyclesPerTick := by
  induction k with
  | zero =>
    intro s h
    have hnone : (s.CYC + 0) / Config.cyclesPerTick = 0 := Nat.div_eq_of_lt h.in_batch
    rw [hnone]
    exact ⟨s, rfl, rfl, ⟨rfl, rfl, rfl, rfl, rfl, rfl⟩, rfl, rfl⟩
  | succ k ih =>
    intro s h
    have hC : s.CYC < 10 := h.in_batch
    obtain ⟨t, hrun, hpc, hsame, hDT, hST⟩ := ih h.finish
    refine ⟨t, (run_succ_of_step k h.step_eq).trans hrun, by simpa using hpc,
      (sameProgramState_finish _ s).trans hsame, ?_, ?_⟩
    · rw [hDT, sampleInputs_DT, sampleInputs_CYC, countCycle_DT, countCycle_CYC, apply_ite BitVec.toNat,
        countDown_toNat]
      exact timer_after_batches hC
    · rw [hST, sampleInputs_ST, sampleInputs_CYC, countCycle_ST, countCycle_CYC, apply_ite BitVec.toNat,
        countDown_toNat]
      exact timer_after_batches hC

end SelfJump

/-- Settles O17: each step of the run ends a cycle of the same state, at the same jump. -/
theorem selfJumpIsARestState : Obligations.SelfJumpIsARestState := by
  unfold Obligations.SelfJumpIsARestState
  intro k s nnn hF hC hpc htarget hw
  exact AtSelfJump.run k ⟨hF, hC, hpc, htarget, hw⟩

end Sys2Proof.Machine
end

section
/-! PROOFS. Control transfer (41_control_flow.md): return (R122), nested calls (R120, R121) and the skips on two
registers (R128, R129); and the clear screen (R190), the other fixed word of group 0. -/

namespace Sys2Proof

/-! ### The fixed words of group 0 and the words of groups 5 and 9 -/

section Words
variable {w : Word}

theorem decodeWord_eq_ret_iff : decodeWord w = .ok .ret ↔ w = 0x00EE :=
  ⟨fun h => (encode_of_decodeWord h).symm, fun h => h ▸ decodeWord_ret⟩

theorem decodeWord_eq_cls_iff : decodeWord w = .ok .cls ↔ w = 0x00E0 :=
  ⟨fun h => (encode_of_decodeWord h).symm, fun h => h ▸ decodeWord_cls⟩

/-- Group 0 has two instructions (R87). -/
theorem unmatched_of_group0 (h1 : fieldN1 w = 0x0) (hcls : w ≠ 0x00E0) (hret : w ≠ 0x00EE) :
    decodeWord w = .error (.unmatched w) :=
  decodeWord_error_iff.mpr (.inl ⟨h1, hcls, hret⟩)

/-- Group 5 has the last digit 0 (R87). -/
theorem unmatched_of_group5 (h1 : fieldN1 w = 0x5) (hn : fieldN4 w ≠ 0) : decodeWord w = .error (.unmatched w) :=
  decodeWord_error_iff.mpr (.inr (.inl ⟨h1, hn⟩))

/-- Group 9 has the last digit 0 (R87). -/
theorem unmatched_of_group9 (h1 : fieldN1 w = 0x9) (hn : fieldN4 w ≠ 0) : decodeWord w = .error (.unmatched w) :=
  decodeWord_error_iff.mpr (.inr (.inr (.inr (.inl ⟨h1, hn⟩))))

end Words

end Sys2Proof

namespace Sys2Proof.Machine

/-- Settles O42: the framebuffer becomes the dark one. -/
theorem clearScreenClearsEveryPixel : Obligations.ClearScreenClearsEveryPixel := by
  unfold Obligations.ClearScreenClearsEveryPixel
  exact ⟨fun w => ⟨decodeWord_eq_cls_iff, unmatched_of_group0⟩, fun s => ⟨_, exec_cls s, pixel_dark, rfl, rfl⟩⟩

/-- Settles O22: a pop reads the entry below `SP`, which the invariant bounds, and one of an empty stack is latched as
StackUnderflow. -/
theorem returnPopsThePc : Obligations.ReturnPopsThePc := by
  unfold Obligations.ReturnPopsThePc
  refine ⟨fun w => ⟨decodeWord_eq_ret_iff, unmatched_of_group0⟩, fun s => ⟨fun hempty => ?_, fun j hj hSP => ?_⟩⟩
  · have hstop := exec_ret_of_empty hempty
    exact ⟨hstop, fun hF hle hw period =>
      ⟨_, afterStep_of_exec_fault period hF hle (decodeWord_eq_ret_iff.mpr hw) hstop⟩⟩
  · refine ⟨_, exec_ret_of_succ hj hSP, rfl, rfl, rfl, fun period hinv => ?_⟩
    exact hinv.return_addresses_bounded j hj (by omega)

/-- Settles O28: the two forms skip under opposite conditions, and bytes are equal exactly when their values are. -/
theorem skipComparesTwoRegisters : Obligations.SkipComparesTwoRegisters := by
  unfold Obligations.SkipComparesTwoRegisters
  intro s x y
  refine ⟨decodeWord_seReg x y, decodeWord_sneReg x y, fun n hn => ⟨?_, ?_⟩, ⟨_, exec_seReg s x y, ?_, ?_⟩,
    ⟨_, exec_sneReg s x y, ?_, ?_⟩⟩
  · exact unmatched_of_group5 (fieldN1_wordXYN _ _ _ _) (by rwa [fieldN4_wordXYN])
  · exact unmatched_of_group9 (fieldN1_wordXYN _ _ _ _) (by rwa [fieldN4_wordXYN])
  · rw [advance_V, skipIf_V]
  · simp only [skipIf_advance_pc, decide_eq_true_eq, BitVec.toNat_inj]
  · rw [advance_V, skipIf_V]
  · simp only [skipIf_advance_pc, decide_eq_true_eq, BitVec.toNat_inj, ne_eq, ite_not]

/-! ### Runs of instructions -/

section ExecAll
variable {s t : State} {i : Instr} (is : List Instr)

theorem execAll_cons_of_next (h : exec i s = .next t) : execAll (i :: is) s = execAll is t := by
  rw [execAll, h]

theorem execAll_cons_of_fault {f : Fault} (h : exec i s = .fault f) : execAll (i :: is) s = .fault f := by
  rw [execAll, h]

end ExecAll

/-! ### Nested calls -/

/-- Where each of the calls stands: the first at `pc`, every other at the target of the one before. -/
def callSites (s : State) (targets : List Addr12) : List Word := s.pc :: targets.map addressImm

/-- The `m`-th call stands at `pc` or at the target before it. -/
theorem callSites_getD (s : State) (targets : List Addr12) (m : Nat) :
    (callSites s targets).getD m 0 = if m = 0 then s.pc else (targets.getD (m - 1) 0).setWidth 16 := by
  cases m with
  | zero => rfl
  | succ m => exact List.getD_map targets 0 addressImm

/-- Calls that fit leave the entries in use and push the address after each call, in order (R120). -/
theorem execAll_calls_of_le (targets : List Addr12) : ∀ {s : State}, s.SP.val + targets.length ≤ 16 →
    ∃ t, execAll (targets.map .call) s = .next t ∧ t.SP.val = s.SP.val + targets.length ∧
      (∀ (j : Nat) (h : j < 16), j < s.SP.val → t.STACK[j] = s.STACK[j]) ∧
      ∀ (m : Nat) (h : s.SP.val + m < 16), m < targets.length →
        t.STACK[s.SP.val + m] = (callSites s targets).getD m 0 + 2 := by
  induction targets with
  | nil =>
    intro s _
    exact ⟨s, rfl, rfl, fun _ _ _ => rfl, fun m _ hm => absurd hm (Nat.not_lt_zero m)⟩
  | cons a as ih =>
    intro s hfits
    rw [List.length_cons] at hfits
    have hfree : s.SP.val < 16 := by omega
    obtain ⟨-, hpush, -⟩ := callPushesTheReturnAddress s a
    obtain ⟨s', hcall, htop, hSP', -, -, hothers⟩ := hpush hfree
    obtain ⟨t, hrun, hSP, hbelow, hpushed⟩ := ih (s := s') (by omega)
    refine ⟨t, (execAll_cons_of_next _ hcall).trans hrun, by rw [List.length_cons]; omega, fun j hj hlt => ?_, ?_⟩
    · exact (hbelow j hj (by omega)).trans (hothers j hj (by omega))
    · intro m hm hlen
      rw [List.length_cons] at hlen
      cases m with
      | zero => exact (hbelow s.SP.val hfree (by omega)).trans htop
      | succ m =>
        have hsites : (callSites s (a :: as)).getD (m + 1) 0 = (callSites s' as).getD m 0 := by
          rw [callSites, callSites, pc_of_call hcall]
          rfl
        have hindex : s.SP.val + (m + 1) = s'.SP.val + m := by omega
        simp only [hsites, hindex]
        exact hpushed m (by omega) (by omega)

/-- One call more than the stack holds stops (R120). -/
theorem execAll_calls_of_gt (targets : List Addr12) : ∀ {s : State}, 16 < s.SP.val + targets.length →
    ∃ pc, execAll (targets.map .call) s = .fault (.stackOverflow pc) := by
  induction targets with
  | nil =>
    intro s hover
    have hSP : s.SP.val < 17 := s.SP.isLt
    rw [List.length_nil] at hover
    omega
  | cons a as ih =>
    intro s hover
    rw [List.length_cons] at hover
    obtain ⟨-, hpush, hfull⟩ := callPushesTheReturnAddress s a
    by_cases hfree : s.SP.val < 16
    · obtain ⟨s', hcall, -, hSP', -⟩ := hpush hfree
      obtain ⟨pc, hstop⟩ := ih (s := s') (by omega)
      exact ⟨pc, (execAll_cons_of_next _ hcall).trans hstop⟩
    · obtain ⟨hstop, -⟩ := hfull (SP_eq_of_not_lt hfree)
      exact ⟨s.pc, execAll_cons_of_fault _ hstop⟩

/-- Returns pop down to entry `j` and go there: no return writes an entry (R121). -/
theorem execAll_returns (k : Nat) {j : Nat} (hj : j < 16) : ∀ {s : State}, s.SP.val = j + (k + 1) →
    ∃ t, execAll (List.replicate (k + 1) .ret) s = .next t ∧ t.SP.val = j ∧ t.pc = s.STACK[j] := by
  induction k with
  | zero =>
    intro s hSP
    exact ⟨_, execAll_cons_of_next [] (exec_ret_of_succ hj hSP), rfl, rfl⟩
  | succ k ih =>
    intro s hSP
    have hlt : s.SP.val < 17 := s.SP.isLt
    have hpop := exec_ret_of_succ (s := s) (j := j + (k + 1)) (by omega) hSP
    obtain ⟨t, hrun, hSPt, hpc⟩ := ih (s := ({ s with SP := ⟨j + (k + 1), _⟩ } : State).jumpTo _) rfl
    exact ⟨t, (execAll_cons_of_next _ hpop).trans hrun, hSPt, hpc⟩

/-- Settles O25: the calls push the addresses after them in order, and `k` returns pop down to the `k`-th last. -/
theorem nestedCallsReturnInReverseOrder : Obligations.NestedCallsReturnInReverseOrder := by
  unfold Obligations.NestedCallsReturnInReverseOrder
  intro s targets
  refine ⟨fun hfits => ?_, execAll_calls_of_gt targets⟩
  obtain ⟨t, hcalls, hSP, -, hpushed⟩ := execAll_calls_of_le targets hfits
  refine ⟨t, hcalls, hSP, fun k hk hkn => ?_⟩
  obtain ⟨k, rfl⟩ := Nat.exists_eq_add_of_le' hk
  obtain ⟨m, hm⟩ := Nat.exists_eq_add_of_le' hkn
  obtain ⟨u, hreturns, hSPu, hpc⟩ := execAll_returns k (j := s.SP.val + m) (s := t) (by omega) (by omega)
  refine ⟨u, hreturns, by omega, ?_⟩
  have hfirst : (k + 1 = targets.length) = (m = 0) := by
    apply propext
    omega
  rw [hpc, hpushed m (by omega) (by omega), callSites_getD]
  simp only [hfirst, show targets.length - (k + 1) - 1 = m - 1 by omega]

end Sys2Proof.Machine
end

section
/-! PROOFS. The forms that write a flag (42_alu.md R146 to R150): the flag goes to `VF` first, so register 15 as an
operand reads it and as the destination loses it. -/

namespace Sys2Proof.Machine

/-! ### The values a flag takes -/

section Flags
variable (a b : Byte)

theorem flagByte_toNat (c : Bool) : (flagByte c).toNat = if c = true then 1 else 0 := by
  cases c <;> rfl

theorem carryFlag_toNat : (flagByte (carryOut a b)).toNat = if 255 < a.toNat + b.toNat then 1 else 0 := by
  simp only [flagByte_toNat, carryOut, decide_eq_true_eq]

theorem noBorrowFlag_toNat : (flagByte (noBorrow a b)).toNat = if b.toNat ≤ a.toNat then 1 else 0 := by
  simp only [flagByte_toNat, noBorrow, decide_eq_true_eq]

theorem lowBitOut_toNat : (lowBitOut a).toNat = a.toNat % 2 := by
  rw [lowBitOut, BitVec.toNat_and]
  exact Nat.and_one_is_mod a.toNat

theorem highBitOut_toNat : (highBitOut a).toNat = a.toNat / 128 := by
  have hlt : a.toNat < 256 := a.isLt
  rw [highBitOut, BitVec.toNat_ushiftRight, BitVec.toNat_and, Nat.shiftRight_and_distrib]
  show a.toNat >>> 7 &&& 1 = a.toNat / 128
  rw [Nat.and_one_is_mod, Nat.shiftRight_eq_div_pow]
  omega

theorem byte_shr_toNat : (a >>> 1).toNat = a.toNat / 2 := by
  rw [BitVec.toNat_ushiftRight, Nat.shiftRight_eq_div_pow]

theorem byte_shl_toNat : (a <<< 1).toNat = a.toNat * 2 % 256 := by
  rw [BitVec.toNat_shiftLeft, Nat.shiftLeft_eq]

/-- The difference of two bytes is that of their values modulo 256 (R152). -/
theorem byte_sub_toNat : ((a - b).toNat : Int) = ((a.toNat : Int) - b.toNat) % 256 := by
  have ha : a.toNat < 256 := a.isLt
  have hb : b.toNat < 256 := b.isLt
  rw [BitVec.toNat_sub]
  omega

end Flags

/-! ### The flag, then the result -/

section FlagThenResult
variable (s : State) (x r : Reg) (f b : Byte)

theorem reg_flagged_self : ((s.setVF f).setReg x b).advance.reg x = b := reg_setReg_advance_self (s.setVF f) x b

/-- The flag stays unless the result goes to `VF` (R24). -/
theorem reg_VF_flagged (hx : x ≠ VF) : ((s.setVF f).setReg x b).advance.reg VF = f := by
  rw [reg_VF_setReg_advance _ x b hx, setVF_eq, reg_setReg_self]

/-- An operand as the result reads it: register 15 holds the flag by then (R15). -/
theorem reg_setVF : (s.setVF f).reg r = if r = VF then f else s.reg r := by
  rw [setVF_eq, reg_setReg]

theorem reg_setVF_toNat : (((s.setVF f).reg r).toNat : Int) = if r = VF then (f.toNat : Int) else (s.reg r).toNat := by
  rw [reg_setVF]
  split <;> rfl

end FlagThenResult

/-- Settles O31: both operands are read before the flag is written. -/
theorem addSetsTheCarry : Obligations.AddSetsTheCarry := by
  unfold Obligations.AddSetsTheCarry
  intro s x y
  refine ⟨_, exec_addReg s x y, rfl, ?_, fun hx => ?_⟩
  · rw [reg_flagged_self, BitVec.toNat_add]
  · rw [reg_VF_flagged _ _ _ _ hx, carryFlag_toNat]

/-- Settles O32: the operands of the difference are read after the flag was written. -/
theorem subtractSetsNoBorrow : Obligations.SubtractSetsNoBorrow := by
  unfold Obligations.SubtractSetsNoBorrow
  intro s x y
  refine ⟨⟨_, _, exec_subReg s x y, rfl, rfl, fun hx => ?_, ?_⟩, ⟨_, _, exec_subnReg s x y, rfl, rfl, fun hx => ?_, ?_⟩⟩
  · rw [reg_VF_flagged _ _ _ _ hx, noBorrowFlag_toNat]
  · rw [reg_flagged_self, byte_sub_toNat, reg_setVF_toNat, reg_setVF_toNat, noBorrowFlag_toNat]
  · rw [reg_VF_flagged _ _ _ _ hx, noBorrowFlag_toNat]
  · rw [reg_flagged_self, byte_sub_toNat, reg_setVF_toNat, reg_setVF_toNat, noBorrowFlag_toNat]

/-- Settles O33: away from `VF` the shift is of the register; in `VF` it is of the bit just shifted out. -/
theorem shiftPutsTheLostBitInVF : Obligations.ShiftPutsTheLostBitInVF := by
  unfold Obligations.ShiftPutsTheLostBitInVF
  intro s x y
  refine ⟨⟨_, exec_shr s x y, rfl, fun hx => ⟨?_, ?_⟩, fun hx => ?_⟩,
    ⟨_, exec_shl s x y, rfl, fun hx => ⟨?_, ?_⟩, fun hx => ?_⟩⟩
  · rw [reg_flagged_self, byte_shr_toNat, reg_setVF, if_neg hx]
  · rw [reg_VF_flagged _ _ _ _ hx, lowBitOut_toNat]
  · subst hx
    apply BitVec.eq_of_toNat_eq
    rw [reg_flagged_self, byte_shr_toNat, reg_setVF, if_pos rfl, lowBitOut_toNat]
    show (s.reg VF).toNat % 2 / 2 = 0
    omega
  · rw [reg_flagged_self, byte_shl_toNat, reg_setVF, if_neg hx]
  · rw [reg_VF_flagged _ _ _ _ hx, highBitOut_toNat]
  · subst hx
    have hlt : (s.reg VF).toNat < 256 := (s.reg VF).isLt
    rw [reg_flagged_self, byte_shl_toNat, reg_setVF, if_pos rfl, highBitOut_toNat]
    split <;> omega

end Sys2Proof.Machine
end

section
/-! PROOFS. Memory through `I` (43_index_memory.md R173 to R175): the blocks stored and loaded, a store read back by a
load and by the next fetch, and the canonical form as data. -/

namespace Sys2Proof.Machine

/-! ### The stored block -/

section Stored
variable {s t : State} {bytes : List Byte}

/-- A completed store leaves byte `k` of the block at `I + k` (R173, R174). -/
theorem byteAt_of_store (hwf : s.MEM.wf) (h : s.storeAtI bytes = .next t) {k : Nat} (hk : k < bytes.length) :
    t.byteAt (s.I.toNat + k) = bytes.getD k 0 := by
  obtain ⟨rfl, -⟩ := storeAtI_next h
  have ⟨hrising, _⟩ := hwf
  refine (Memory.read_writeBytes bytes s.MEM s.base _ hrising).trans ?_
  rw [State.base, if_pos (by omega), Nat.add_sub_cancel_left]

/-- A completed store of registers leaves `V[r]` at `I + r` (R174). -/
theorem byteAt_of_exec_store {x r : Reg} (hwf : s.MEM.wf) (h : exec (.store x) s = .next t) (hr : r ≤ x) :
    t.byteAt (s.I.toNat + r.val) = s.reg r := by
  have hk : r.val < (s.regsUpTo x).length := by
    rw [regsUpTo_length]
    exact Nat.lt_succ_of_le hr
  rw [byteAt_of_store hwf h hk, regsUpTo_getD s x r hr]

end Stored

/-- Settles O36: the block is the three digits. -/
theorem decimalDigitsAreStored : Obligations.DecimalDigitsAreStored := by
  unfold Obligations.DecimalDigitsAreStored
  intro s x hwf
  have hval : (s.reg x).toNat < 256 := (s.reg x).isLt
  refine ⟨fun hfits => ?_, fun hover => ⟨_, storeAtI_of_gt (Nat.succ_ne_zero _) hover⟩⟩
  have hstore : s.storeAtI (decimalDigits (s.reg x)) = .next _ := storeAtI_of_le hfits
  refine ⟨_, hstore, ?_, ?_, ?_, rfl, rfl, rfl, wf_of_exec (i := .ldB x) hwf hstore⟩
  · have hbyte := byteAt_of_store hwf hstore (k := 0) (show 0 < 3 by decide)
    rw [Nat.add_zero] at hbyte
    rw [hbyte]
    exact Nat.mod_eq_of_lt (by omega)
  · rw [byteAt_of_store hwf hstore (k := 1) (show 1 < 3 by decide)]
    exact Nat.mod_eq_of_lt (by omega)
  · rw [byteAt_of_store hwf hstore (k := 2) (show 2 < 3 by decide)]
    exact Nat.mod_eq_of_lt (by omega)

/-- Settles O37: the block is the registers up to `V[x]`. -/
theorem registerBlockIsStored : Obligations.RegisterBlockIsStored := by
  unfold Obligations.RegisterBlockIsStored
  intro s x hwf
  have hlen := regsUpTo_length s x
  refine ⟨fun hfits => ?_, fun hover => ⟨_, storeAtI_of_gt (hlen ▸ Nat.succ_ne_zero _) (hlen ▸ hover)⟩⟩
  have hstore : exec (.store x) s = .next _ := storeAtI_of_le (hlen ▸ hfits)
  exact ⟨_, hstore, fun r => byteAt_of_exec_store hwf hstore, rfl, rfl, rfl, wf_of_exec hwf hstore⟩

/-! ### The loaded block -/

/-- A completed load leaves the cell at `I + r` in `V[r]` (R175). -/
theorem reg_of_exec_load {s t : State} {x r : Reg} (h : exec (.load x) s = .next t) (hr : r ≤ x) :
    t.reg r = s.byteAt (s.I.toNat + r.val) := by
  obtain ⟨rfl, -⟩ := execLoad_next h
  have hk : r.val < (s.MEM.readBytes s.base (x.val + 1)).length := by
    rw [Memory.readBytes_length]
    exact Nat.lt_succ_of_le hr
  refine (setRegsFrom_getElem _ 0 s.V r.val r.isLt).trans ?_
  rw [if_pos ⟨Nat.zero_le _, by omega⟩, Nat.sub_zero, List.getD_eq_getElem _ _ hk, Memory.readBytes_getElem]
  rfl

/-- Settles O38: the block fills the registers up to `V[x]` and no other. -/
theorem registerBlockIsLoaded : Obligations.RegisterBlockIsLoaded := by
  unfold Obligations.RegisterBlockIsLoaded
  intro s x
  refine ⟨fun hfits => ?_, fun hover => ⟨_, exec_load_of_gt hover⟩⟩
  have hload : exec (.load x) s = .next _ := exec_load_of_le hfits
  exact ⟨_, hload, fun r => reg_of_exec_load hload, fun r => reg_of_load_above hload, rfl, rfl, rfl⟩

/-! ### A store read back -/

/-- Settles O39: the store fitted and `I` stands, so the load reads the same block. -/
theorem storedRegistersLoadBack : Obligations.StoredRegistersLoadBack := by
  unfold Obligations.StoredRegistersLoadBack
  intro s t x other hwf h
  obtain ⟨ht, hfits⟩ := storeAtI_next h
  rw [regsUpTo_length] at hfits
  have hI : t.I = s.I := by rw [ht, advance_I]
  have hbase : t.base + x.val + 1 ≤ 4096 := by
    rw [State.base, hI]
    exact hfits.resolve_left (Nat.succ_ne_zero _)
  have hload : exec (.load x) { t with V := other } = .next _ := exec_load_of_le hbase
  refine ⟨_, hload, fun r hr => ?_⟩
  have hstored := byteAt_of_exec_store hwf h hr
  rw [← hI] at hstored
  exact (reg_of_exec_load hload hr).trans hstored

/-- Settles O40: the fetch reads the two cells that hold `V[p]` and `V[q]`. -/
theorem storedBytesAreFetchedNext : Obligations.StoredBytesAreFetchedNext := by
  unfold Obligations.StoredBytesAreFetchedNext
  intro s t x p q hwf h hpc hq hqx
  obtain ⟨-, hfits⟩ := storeAtI_next h
  rw [regsUpTo_length, State.base] at hfits
  have hqx_val : q.val ≤ x.val := hqx
  have hpx : p ≤ x := by
    show p.val ≤ x.val
    omega
  have hnext : t.pc.toNat + 1 = s.I.toNat + q.val := by omega
  rw [fetch_of_le (by omega), State.wordAtPc, hnext, hpc, byteAt_of_exec_store hwf h hpx,
    byteAt_of_exec_store hwf h hqx]
  rfl

/-! ### Canonical memories -/

/-- A cell below all that are listed reads as its reset content. -/
theorem Memory.read_of_lt {m : Memory} {a : Nat} (h : ∀ c ∈ m, a < c.1) : m.read a = Memory.background a := by
  induction m with
  | nil => rfl
  | cons c m ih =>
    rw [Memory.read, if_neg (Nat.ne_of_lt (h c List.mem_cons_self))]
    exact ih fun d hd => h d (List.mem_cons_of_mem c hd)

/-- A canonical memory lists exactly the cells that differ from their reset content. -/
theorem Memory.mem_iff_read {m : Memory} (h : m.wf) (a : Nat) (v : Byte) :
    (a, v) ∈ m ↔ m.read a = v ∧ v ≠ Memory.background a := by
  obtain ⟨hrising, hcells⟩ := h
  induction m with
  | nil =>
    refine ⟨fun hmem => absurd hmem List.not_mem_nil, fun ⟨hread, hne⟩ => absurd hread.symm hne⟩
  | cons c m ih =>
    obtain ⟨hfirst, hrest⟩ := List.pairwise_cons.mp hrising
    have ih := ih hrest fun d hd => hcells d (List.mem_cons_of_mem c hd)
    obtain ⟨k, w⟩ := c
    rw [List.mem_cons, Memory.read, ih]
    by_cases hak : a = k
    · subst hak
      have hunlisted : Memory.read m a = Memory.background a := Memory.read_of_lt hfirst
      obtain ⟨-, hw⟩ := hcells (a, w) List.mem_cons_self
      rw [if_pos rfl, hunlisted]
      constructor
      · rintro (heq | ⟨rfl, hne⟩)
        · cases heq
          exact ⟨rfl, hw⟩
        · exact absurd rfl hne
      · rintro ⟨rfl, -⟩
        exact .inl rfl
    · rw [if_neg hak]
      refine ⟨fun hor => hor.resolve_left fun heq => ?_, .inr⟩
      cases heq
      exact hak rfl

/-- Settles O41: two canonical memories that read alike list the same cells, in rising order. -/
theorem canonicalMemoriesThatReadAlikeAreEqual : Obligations.CanonicalMemoriesThatReadAlikeAreEqual := by
  unfold Obligations.CanonicalMemoriesThatReadAlikeAreEqual
  intro m n hm hn hread
  have hsame : ∀ c : Host.Cell, c ∈ m ↔ c ∈ n := by
    rintro ⟨a, v⟩
    rw [Memory.mem_iff_read hm, Memory.mem_iff_read hn, hread]
  have hirrefl : Std.Irrefl fun c d : Host.Cell => c.1 < d.1 := ⟨fun c => Nat.lt_irrefl c.1⟩
  have hantisymm : Std.Antisymm fun c d : Host.Cell => c.1 < d.1 := ⟨fun _ _ h h' => absurd h' (Nat.lt_asymm h)⟩
  have ⟨hm_rising, _⟩ := hm
  have ⟨hn_rising, _⟩ := hn
  exact hm_rising.eq_of_mem_iff hn_rising hsame

end Sys2Proof.Machine
end

section
/-! PROOFS. The blit (44_display.md R191 to R193): its loops flip one after the other the pixels of a list without
repetition, which are the pixels the sprite covers. -/

namespace Sys2Proof.Machine

/-- A place on the screen: row and column. -/
abbrev Place := Fin Config.fbHeight × Fin Config.fbWidth

/-! ### Flipping the pixels of a list -/

/-- The pixel at `p` inverted, and whether a lit one was met so far (R191). -/
def plot (drawn : FrameBuffer × Bool) (p : Place) : FrameBuffer × Bool :=
  (drawn.1.flip p.1 p.2, drawn.2 || drawn.1.pixel p.1 p.2)

/-- Without repetition each listed pixel is inverted once. -/
theorem pixel_foldl_plot {l : List Place} (hl : l.Nodup) (drawn : FrameBuffer × Bool) (p : Place) :
    (l.foldl plot drawn).1.pixel p.1 p.2 = if p ∈ l then !drawn.1.pixel p.1 p.2 else drawn.1.pixel p.1 p.2 := by
  induction l generalizing drawn with
  | nil => rfl
  | cons q l ih =>
    obtain ⟨hq, hrest⟩ := List.nodup_cons.mp hl
    rw [List.foldl_cons, ih hrest, plot, pixel_flip]
    by_cases hpq : p = q
    · subst hpq
      simp [hq]
    · have hplace : ¬(p.1 = q.1 ∧ p.2 = q.2) := fun ⟨h1, h2⟩ => hpq (Prod.ext h1 h2)
      simp [hpq, hplace]

/-- Without repetition a lit pixel is met exactly when a listed one was lit at the start. -/
theorem collided_foldl_plot {l : List Place} (hl : l.Nodup) (drawn : FrameBuffer × Bool) :
    (l.foldl plot drawn).2 = true ↔ drawn.2 = true ∨ ∃ p ∈ l, drawn.1.pixel p.1 p.2 = true := by
  induction l generalizing drawn with
  | nil => simp
  | cons q l ih =>
    obtain ⟨hq, hrest⟩ := List.nodup_cons.mp hl
    have hkept : ∀ p ∈ l, (plot drawn q).1.pixel p.1 p.2 = drawn.1.pixel p.1 p.2 := by
      intro p hp
      have hplace : ¬(p.1 = q.1 ∧ p.2 = q.2) := fun ⟨h1, h2⟩ => hq (Prod.ext h1 h2 ▸ hp)
      rw [plot, pixel_flip, if_neg hplace]
    have hlit : (∃ p ∈ l, (plot drawn q).1.pixel p.1 p.2 = true) ↔ ∃ p ∈ l, drawn.1.pixel p.1 p.2 = true :=
      exists_congr fun p => and_congr_right fun hp => by rw [hkept p hp]
    rw [List.foldl_cons, ih hrest, hlit, List.exists_mem_cons_iff, plot, Bool.or_eq_true, or_assoc]

/-! ### The pixels a sprite covers, in the order they are drawn -/

section Pixels
variable (x0 : Nat)

/-- The pixels of `n` bits of one row from bit `b` on (R191). -/
def rowPixels (row : Byte) (y n b : Nat) : List Place :=
  ((List.range' b n).filter (spriteBit row)).map fun j => (targetRow y, targetCol (x0 + j))

/-- The pixels of the rows from the top (R191). -/
def spritePixels : List Byte → Nat → List Place
  | [], _ => []
  | row :: rows, y => rowPixels x0 row y 8 0 ++ spritePixels rows (y + 1)

theorem mem_rowPixels {row : Byte} {y n b : Nat} {p : Place} : p ∈ rowPixels x0 row y n b ↔
    ∃ j, b ≤ j ∧ j < b + n ∧ spriteBit row j = true ∧ p = (targetRow y, targetCol (x0 + j)) := by
  simp only [rowPixels, List.mem_map, List.mem_filter, List.mem_range'_1, and_assoc, eq_comm]

theorem mem_spritePixels {rows : List Byte} {y : Nat} {p : Place} : p ∈ spritePixels x0 rows y ↔
    ∃ k b, k < rows.length ∧ b < 8 ∧ spriteBit (rows.getD k 0) b = true ∧
      p = (targetRow (y + k), targetCol (x0 + b)) := by
  induction rows generalizing y with
  | nil => simp [spritePixels]
  | cons row rows ih =>
    rw [spritePixels, List.mem_append, mem_rowPixels, ih]
    constructor
    · rintro (⟨b, -, hb, hbit, hp⟩ | ⟨k, b, hk, hb, hbit, hp⟩)
      · exact ⟨0, b, Nat.succ_pos _, by omega, hbit, hp⟩
      · exact ⟨k + 1, b, Nat.succ_lt_succ hk, hb, hbit, by rw [hp, Nat.add_right_comm, Nat.add_assoc]⟩
    · rintro ⟨k, b, hk, hb, hbit, hp⟩
      cases k with
      | zero => exact .inl ⟨b, Nat.zero_le b, by omega, hbit, hp⟩
      | succ k =>
        exact .inr ⟨k, b, Nat.lt_of_succ_lt_succ hk, hb, hbit, by rw [hp, Nat.add_right_comm, Nat.add_assoc]⟩

/-- A row has at most as many bits as the screen has columns, so it meets no pixel twice. -/
theorem nodup_rowPixels (row : Byte) (y b : Nat) {n : Nat} (hn : n ≤ 64) : (rowPixels x0 row y n b).Nodup := by
  refine List.Nodup.map_on (fun i hi j hj hij => ?_) ((List.nodup_range' (step := 1)).filter _)
  obtain ⟨hi, -⟩ := List.mem_filter.mp hi
  obtain ⟨hj, -⟩ := List.mem_filter.mp hj
  rw [List.mem_range'_1] at hi hj
  have hcol : (x0 + i) % 64 = (x0 + j) % 64 := congrArg (fun p : Place => p.2.val) hij
  omega

/-- A sprite has at most as many rows as the screen, so it meets no pixel twice. -/
theorem nodup_spritePixels {rows : List Byte} (y : Nat) (h : rows.length ≤ 32) : (spritePixels x0 rows y).Nodup := by
  induction rows generalizing y with
  | nil => exact List.nodup_nil
  | cons row rows ih =>
    rw [List.length_cons] at h
    refine List.nodup_append'.mpr ⟨nodup_rowPixels x0 row y 0 (by decide), ih (y + 1) (by omega), ?_⟩
    intro p hp hp'
    obtain ⟨_, _, _, _, rfl⟩ := (mem_rowPixels x0).mp hp
    obtain ⟨k, _, hk, -, -, hplace⟩ := (mem_spritePixels x0).mp hp'
    have hrow : y % 32 = (y + 1 + k) % 32 := congrArg (fun p : Place => p.1.val) hplace
    omega

/-! ### The loops draw those pixels -/

theorem blitBits_eq (row : Byte) (y n b : Nat) (drawn : FrameBuffer × Bool) :
    blitBits row x0 y n b drawn = (rowPixels x0 row y n b).foldl plot drawn := by
  induction n generalizing b drawn with
  | zero => rfl
  | succ n ih =>
    rw [blitBits, ih, rowPixels, rowPixels, List.range'_succ, List.filter_cons, blitBit]
    split
    · rfl
    · rfl

theorem blitRows_eq (rows : List Byte) (y : Nat) (drawn : FrameBuffer × Bool) :
    blitRows x0 rows y drawn = (spritePixels x0 rows y).foldl plot drawn := by
  induction rows generalizing y drawn with
  | nil => rfl
  | cons row rows ih => rw [blitRows, ih, blitBits_eq, spritePixels, List.foldl_append]

theorem drawSprite_eq (fb : FrameBuffer) (rows : List Byte) (y0 : Nat) :
    drawSprite fb rows x0 y0 = (spritePixels x0 rows y0).foldl plot (fb, false) :=
  blitRows_eq x0 rows y0 (fb, false)

end Pixels

/-! ### `Dxyn` -/

section Draw
variable {s t : State} {x y : Reg} {n : Nat}

/-- The pixels drawn are those of the set of R193. -/
theorem mem_spritePixels_iff_covers {x0 y0 : Nat} {r : Fin Config.fbHeight} {c : Fin Config.fbWidth} :
    (r, c) ∈ spritePixels x0 (s.MEM.readBytes s.base n) y0 ↔ SpriteCovers s n x0 y0 r c := by
  rw [mem_spritePixels, Memory.readBytes_length]
  refine exists_congr fun k => exists_congr fun b => and_congr_right fun hk => and_congr_right fun _ => ?_
  have hrow : (s.MEM.readBytes s.base n).getD k 0 = s.byteAt (s.I.toNat + k) := by
    rw [List.getD_eq_getElem _ _ (by rwa [Memory.readBytes_length]), Memory.readBytes_getElem]
    rfl
  have hplace : (r, c) = (targetRow (y0 + k), targetCol (x0 + b)) ↔ (y0 + k) % 32 = r.val ∧ (x0 + b) % 64 = c.val := by
    rw [Prod.mk.injEq, Fin.ext_iff, Fin.ext_iff]
    exact and_congr eq_comm eq_comm
  rw [hrow, hplace, spriteBit]

/-- The coordinates are read after `VF` was cleared (R192). -/
theorem reg_cleared_toNat (s : State) (x : Reg) : ((s.setReg VF 0).reg x).toNat = drawCoordinate s x := by
  rw [reg_setReg, drawCoordinate]
  split <;> rfl

theorem flagByte_eq_one_iff (c : Bool) : flagByte c = 1 ↔ c = true := by
  cases c <;> decide

/-- What a completed draw does, as the set form of R193. -/
theorem draw_of_exec (hn : n < 16) (h : exec (.drw x y n) s = .next t) :
    (∀ r c, SpriteCovers s n (drawCoordinate s x) (drawCoordinate s y) r c → t.pixel r c = !s.pixel r c) ∧
    (∀ r c, ¬ SpriteCovers s n (drawCoordinate s x) (drawCoordinate s y) r c → t.pixel r c = s.pixel r c) ∧
    (t.reg VF = 1 ∨ t.reg VF = 0) ∧
    (t.reg VF = 1 ↔
      ∃ r c, SpriteCovers s n (drawCoordinate s x) (drawCoordinate s y) r c ∧ s.pixel r c = true) ∧
    t.I = s.I ∧ t.MEM = s.MEM := by
  obtain ⟨drawn, hdrawn, rfl, -⟩ := execDrw_next h
  rw [reg_cleared_toNat, reg_cleared_toNat, drawSprite_eq] at hdrawn
  have hnodup := nodup_spritePixels (drawCoordinate s x) (rows := s.MEM.readBytes s.base n) (drawCoordinate s y)
    (by rw [Memory.readBytes_length]; omega)
  have hpixel := fun r c => pixel_foldl_plot hnodup (s.FB, false) (r, c)
  have hcollided := collided_foldl_plot hnodup (s.FB, false)
  rw [← hdrawn] at hcollided
  simp only [← hdrawn] at hpixel
  have hVF : ((({ s.setReg VF 0 with FB := drawn.1 } : State).setReg VF (flagByte drawn.2)).advance).reg VF =
    flagByte drawn.2 := reg_setReg_advance_self _ VF _
  refine ⟨fun r c hc => (hpixel r c).trans (if_pos (mem_spritePixels_iff_covers.mpr hc)),
    fun r c hc => (hpixel r c).trans (if_neg (mem_spritePixels_iff_covers.not.mpr hc)), ?_, ?_, rfl, rfl⟩
  · rw [hVF]
    cases drawn.2
    · exact .inr rfl
    · exact .inl rfl
  · rw [hVF, flagByte_eq_one_iff, hcollided, Prod.exists]
    simp only [Bool.false_eq_true, false_or, mem_spritePixels_iff_covers]
    rfl

end Draw

/-- Settles O43: the pixels the loops flip are the covered ones, each once. -/
theorem drawInvertsTheCoveredPixels : Obligations.DrawInvertsTheCoveredPixels := by
  unfold Obligations.DrawInvertsTheCoveredPixels
  intro s x y n hn
  refine ⟨decodeWord_drw_of_lt x y hn, fun hfits => ?_, fun hpos hover => ⟨_, exec_drw_of_gt hpos hover⟩⟩
  obtain ⟨t, h⟩ := exec_drw_of_le (x := x) (y := y) hfits
  obtain ⟨hcovered, hother, hflag, hcollision, hI, hMEM⟩ := draw_of_exec hn h
  have hregs := keepsRegs_of_drw h
  exact ⟨t, h, pc_of_drw h, hcovered, hother, hflag, hcollision,
    fun r hr => hregs r (by simpa using hr), hI, hMEM⟩

/-! ### Drawing twice -/

/-- A sprite covers some pixel exactly when it has a lit bit (R193). -/
theorem exists_covers_iff {s : State} {n x0 y0 : Nat} :
    (∃ r c, SpriteCovers s n x0 y0 r c) ↔ ∃ k, k < n ∧ s.byteAt (s.I.toNat + k) ≠ 0 := by
  constructor
  · rintro ⟨r, c, k, b, hk, -, hbit, -⟩
    refine ⟨k, hk, fun h0 => ?_⟩
    rw [h0] at hbit
    simp at hbit
  · rintro ⟨k, hk, hne⟩
    obtain ⟨j, hj⟩ : ∃ j, (s.byteAt (s.I.toNat + k)).getLsbD j = true := by
      by_contra hnone
      refine hne (BitVec.eq_of_getLsbD_eq fun j _ => ?_)
      simpa using not_exists.mp hnone j
    have hlt : j < 8 := BitVec.lt_of_getLsbD hj
    refine ⟨targetRow (y0 + k), targetCol (x0 + (7 - j)), k, 7 - j, hk, by omega, ?_, rfl, rfl⟩
    rwa [show 7 - (7 - j) = j by omega]

/-- Settles O44: both draws cover the same pixels, since the first changes neither the sprite nor a coordinate. -/
theorem drawingTwiceRestoresTheScreen : Obligations.DrawingTwiceRestoresTheScreen := by
  unfold Obligations.DrawingTwiceRestoresTheScreen
  intro s x y n hn hfits
  obtain ⟨-, hdraw, -⟩ := drawInvertsTheCoveredPixels s x y n hn
  obtain ⟨t, ht, -, hcovered, hother, -, -, hregs, hI, hMEM⟩ := hdraw hfits
  obtain ⟨-, hdraw', -⟩ := drawInvertsTheCoveredPixels t x y n hn
  obtain ⟨u, hu, -, hcovered', hother', -, hcollision', -⟩ := hdraw' (by rwa [hI])
  have hcoordinate : ∀ z, drawCoordinate t z = drawCoordinate s z := by
    intro z
    unfold drawCoordinate
    split
    · rfl
    next hz => rw [hregs z hz]
  have hcovers : ∀ x0 y0 r c, SpriteCovers t n x0 y0 r c = SpriteCovers s n x0 y0 r c := by
    intro x0 y0 r c
    unfold SpriteCovers State.byteAt
    rw [hI, hMEM]
  simp only [hcoordinate, hcovers] at hcovered' hother' hcollision'
  refine ⟨t, u, ht, hu, fun r c => ?_, fun hdark => ?_⟩
  · by_cases hc : SpriteCovers s n (drawCoordinate s x) (drawCoordinate s y) r c
    · rw [hcovered' r c hc, hcovered r c hc, Bool.not_not]
    · rw [hother' r c hc, hother r c hc]
  · rw [hcollision', ← exists_covers_iff (x0 := drawCoordinate s x) (y0 := drawCoordinate s y)]
    refine exists_congr fun r => exists_congr fun c => and_iff_left_of_imp fun hc => ?_
    rw [hcovered r c hc, hdark, Bool.not_false]

end Sys2Proof.Machine
end
